-- ==== Sys2Proof/Word.lean ====
section
/-! DEFINITION. The word and byte of the jcfb-pxu (00_scope.md rule R6: registers and addresses of 32 bits; 20_memory.md
rule R61: a byte is 8 bits). -/

namespace Sys2Proof

/-- A register word: "every register of the register block" is 32 bits wide (00_scope.md rule R6). -/
abbrev Word := BitVec 32

/-- A byte of pixel memory (20_memory.md rule R61). -/
abbrev Byte := BitVec 8

end Sys2Proof
end

