-- ==== Sys2Proof/Config.lean ====
section
/-! DEFINITION. The shape of a pixel-format descriptor as its five registers store it (10_state.md rule R30), the two
OPEN parameters of the hardware (00_scope.md rule R6): the built-in format table and the colorkey colour, and the one free
value, the power-up contents of pixel memory. -/

namespace Sys2Proof

/-- The four channels of a pixel, in the order of 00_scope.md rule R10 (k = 0, 1, 2, 3). -/
inductive Chan where
  | R | G | B | A
deriving DecidableEq, Repr

/-- The fields OFF [4:0] and WID [13:8] of one register FMT_R, FMT_G, FMT_B or FMT_A (10_state.md rule R22). -/
structure ChanField where
  off : BitVec 5
  wid : BitVec 6
deriving DecidableEq, Repr

/-- One slot of the format table as stored: FMT_BPP [5:0] and the four channel registers (10_state.md rule R30). -/
structure PixFmt where
  bpp : BitVec 6
  r : ChanField
  g : ChanField
  b : ChanField
  a : ChanField
deriving DecidableEq, Repr

/-- The OPEN parameters of 00_scope.md rule R6, as one value: `BUILTIN_FMT[1..6]` in the order of 10_state.md rule R34,
and `COLORKEY_RGBA`. The machine takes them as an argument (State.cfg); no rule assumes more of them than
`configLegal` in Machine/Formats.lean says. -/
structure Config where
  rgb565 : PixFmt
  rgb24 : PixFmt
  bgr24 : PixFmt
  rgba32 : PixFmt
  argb32 : PixFmt
  abgr32 : PixFmt
  colorkey : Word
deriving DecidableEq, Repr

/-- The byte that pixel memory holds at each address at power-up, a FREE VALUE: the spec leaves it unspecified, and a model
must not assume zero (70_reset_and_hazards.md rule R222, 93_implementation_defined.md U9; log 1). It has no body, so no
proof knows a byte of it. -/
opaque powerUpByte : Nat → Byte

end Sys2Proof
end

