-- ==== Sys2Proof/Syntax.lean ====
section
/-! DEFINITION. The commands (30_encoding.md rule R84: thirteen, one constructor each), the fields of a command word
(rule R80), and the actions a host can perform (30_encoding.md rule R90, 60_exceptions.md rule R207). -/

namespace Sys2Proof

/-- The thirteen commands, one constructor per row of spec/opcode_table.json. A command has no operand field: its operands
are registers (30_encoding.md rule R87). -/
inductive Instr where
  /-- CONVERT, 40_convert.md rule R110. -/
  | convert
  /-- ENCODE, 40_convert.md rule R111. -/
  | encode
  /-- PUTPIXEL, 42_pixel_ops.md rule R140. -/
  | putpixel
  /-- PUTPIXEL.ADD, 42_pixel_ops.md rule R141. -/
  | putpixelAdd
  /-- CLEAR, 42_pixel_ops.md rule R142. -/
  | clear
  /-- BLIT, 43_blit.md rule R155. -/
  | blit
  /-- BLIT.KEY, 43_blit.md rule R156. -/
  | blitKey
  /-- BLIT.ADD, 43_blit.md rule R157. -/
  | blitAdd
  /-- BLIT.HFLIP, 43_blit.md rule R158. -/
  | blitHflip
  /-- BLIT.KEY.HFLIP, 43_blit.md rule R159. -/
  | blitKeyHflip
  /-- BLIT.ADD.HFLIP, 43_blit.md rule R160. -/
  | blitAddHflip
  /-- SBLIT, 44_scaler.md rule R175. -/
  | sblit
  /-- SRBLIT, 44_scaler.md rule R176. -/
  | srblit
deriving DecidableEq, Repr

/-- The combine operations (30_encoding.md rule R83; the value 3 of the field names none). -/
inductive Comb where
  | replace | key | add
deriving DecidableEq, Repr

/-- The four fields of a command word: OPC [3:0], COMB [5:4], HFLIP [6], ZERO [31:7] (30_encoding.md rule R80). -/
structure CmdFields where
  opc : BitVec 4
  comb : BitVec 2
  hflip : BitVec 1
  zero : BitVec 25
deriving DecidableEq, Repr

/-- One action of the host (30_encoding.md rule R90). A register is named by its WORD INDEX, its byte offset divided by 4:
"every offset is a multiple of 4" and "the port has no means to express" another (10_state.md rules R22, R23; log 5). -/
inductive HostAction where
  /-- `WR`: write the word `v` to the register at byte offset `4 * idx`. -/
  | wr (idx : Nat) (v : Word)
  /-- `RD`: read the register at byte offset `4 * idx`. -/
  | rd (idx : Nat)
  /-- `MW addr, n, value`: the host's own write of the `n` low bytes of `v` to pixel memory. -/
  | mw (addr : Word) (n : Nat) (v : Word)
  /-- `MR addr, n`: the host's own read of `n` bytes of pixel memory. -/
  | mr (addr : Word) (n : Nat)
  /-- The hardware reset input, asserted between commands (70_reset_and_hazards.md rule R221). -/
  | resetInput
deriving DecidableEq, Repr

end Sys2Proof
end

