-- ==== Sys2Proof/WellFormed.lean ====
section
/-! DEFINITION. Which field values make a command word legal (30_encoding.md rules R84, R85), and which host memory
accesses the spec defines (20_memory.md rules R63, R64). -/

namespace Sys2Proof

/-- Which COMB values an operation admits with forward reads, and whether it admits HFLIP (30_encoding.md rule R84, "Which
modifier combinations are admitted"). -/
def CmdFields.modifiersAdmitted (f : CmdFields) : Bool :=
  match f.opc.toNat with
  | 3 => (f.comb == 0 || f.comb == 2) && f.hflip == 0
  | 5 => f.comb != 3
  | _ => f.comb == 0 && f.hflip == 0

/-- The fields are those of one of the thirteen legal words (30_encoding.md rules R84, R85): ZERO is zero, OPC is 1 to 7,
and the modifiers are admitted. -/
def CmdFields.wf (f : CmdFields) : Bool :=
  f.zero == 0 && decide (1 ≤ f.opc.toNat ∧ f.opc.toNat ≤ 7) && f.modifiersAdmitted

/-- A host action the spec defines: a memory access is of 1 to 4 bytes, within the address space, and a written value fits
its width (20_memory.md rules R63, R64); every register access is defined (10_state.md rule R23). -/
def HostAction.wf : HostAction → Bool
  | .wr _ _ => true
  | .rd _ => true
  | .mw addr n v => decide (1 ≤ n ∧ n ≤ 4 ∧ addr.toNat + n ≤ 2 ^ 32 ∧ v.toNat < 2 ^ (8 * n))
  | .mr addr n => decide (1 ≤ n ∧ n ≤ 4 ∧ addr.toNat + n ≤ 2 ^ 32)
  | .resetInput => true

end Sys2Proof
end

