-- ==== Sys2Proof/Decode.lean ====
section
/-! DEFINITION. The decoder of command words, total on every 32-bit word and rejecting by name, and after it the encoder
(30_encoding.md rules R80 to R86). -/

namespace Sys2Proof

/-- Why a command word is reserved (30_encoding.md rule R85). The hardware records none of this: every reserved word
raises the one fault E_ILLEGAL. -/
inductive Reserved where
  /-- A bit of ZERO (31:7) is 1. -/
  | zeroField
  /-- OPC is 0 or 8 to 15. -/
  | opcode
  /-- The operation does not admit this COMB and HFLIP; COMB = 3 is admitted by none. -/
  | modifiers
deriving DecidableEq, Repr

/-- The fields of a word (30_encoding.md rule R80). -/
def cmdFields (w : Word) : CmdFields :=
  { opc := w.extractLsb' 0 4, comb := w.extractLsb' 4 2, hflip := w.extractLsb' 6 1, zero := w.extractLsb' 7 25 }

/-- The operation named by OPC with the modifiers COMB and HFLIP (30_encoding.md rules R82 to R84). -/
def decodeFields (f : CmdFields) : Except Reserved Instr :=
  if f.zero ≠ 0 then .error .zeroField else
  match f.opc.toNat, f.comb.toNat, f.hflip.toNat with
  | 1, 0, 0 => .ok .convert
  | 2, 0, 0 => .ok .encode
  | 3, 0, 0 => .ok .putpixel
  | 3, 2, 0 => .ok .putpixelAdd
  | 4, 0, 0 => .ok .clear
  | 5, 0, 0 => .ok .blit
  | 5, 1, 0 => .ok .blitKey
  | 5, 2, 0 => .ok .blitAdd
  | 5, 0, 1 => .ok .blitHflip
  | 5, 1, 1 => .ok .blitKeyHflip
  | 5, 2, 1 => .ok .blitAddHflip
  | 6, 0, 0 => .ok .sblit
  | 7, 0, 0 => .ok .srblit
  | opc, _, _ => if 1 ≤ opc ∧ opc ≤ 7 then .error .modifiers else .error .opcode

/-- The decoder: "every 32-bit word is either one of the 13 legal commands or reserved" (30_encoding.md rule R86). -/
def decode (w : Word) : Except Reserved Instr :=
  decodeFields (cmdFields w)

/-- The instruction the decoder reads from a word given as the opcode table numbers its bits: a command is one 32-bit word
and has no second word (30_encoding.md rule R88); it does not lie in memory, so no byte order enters (10_state.md
rule R21). -/
def decodeTableWord (nbits w : Nat) : Option Instr :=
  match decode (BitVec.ofNat 32 (w % 2 ^ nbits)) with
  | .ok i => some i
  | .error _ => none

/-- The fields OPC, COMB and HFLIP that 30_encoding.md rule R84 gives a command. -/
def instrFields : Instr → CmdFields
  | .convert => { opc := 1, comb := 0, hflip := 0, zero := 0 }
  | .encode => { opc := 2, comb := 0, hflip := 0, zero := 0 }
  | .putpixel => { opc := 3, comb := 0, hflip := 0, zero := 0 }
  | .putpixelAdd => { opc := 3, comb := 2, hflip := 0, zero := 0 }
  | .clear => { opc := 4, comb := 0, hflip := 0, zero := 0 }
  | .blit => { opc := 5, comb := 0, hflip := 0, zero := 0 }
  | .blitKey => { opc := 5, comb := 1, hflip := 0, zero := 0 }
  | .blitAdd => { opc := 5, comb := 2, hflip := 0, zero := 0 }
  | .blitHflip => { opc := 5, comb := 0, hflip := 1, zero := 0 }
  | .blitKeyHflip => { opc := 5, comb := 1, hflip := 1, zero := 0 }
  | .blitAddHflip => { opc := 5, comb := 2, hflip := 1, zero := 0 }
  | .sblit => { opc := 6, comb := 0, hflip := 0, zero := 0 }
  | .srblit => { opc := 7, comb := 0, hflip := 0, zero := 0 }

/-- Four fields as one word (30_encoding.md rule R80). -/
def packFields (f : CmdFields) : Word :=
  f.zero ++ f.hflip ++ f.comb ++ f.opc

/-- The encoder: the word of a command (30_encoding.md rules R80, R84). -/
def encode (i : Instr) : Word :=
  packFields (instrFields i)

/-- A command is well formed when its fields are legal; every command of rule R84 is. -/
def wellFormed (i : Instr) : Bool :=
  (instrFields i).wf

end Sys2Proof
end

