-- ==== Sys2Proof/Machine/Bits.lean ====
section
/-! DEFINITION. The bit operators of 00_scope.md rules R8 and R9 that Nat does not have under a name of its own. -/

namespace Sys2Proof.Machine

/-- `ones(n)` is `2^n − 1` (00_scope.md rule R9). -/
def ones (n : Nat) : Nat := 2 ^ n - 1

/-- `a & ~m`: "a with every bit that is 1 in m cleared" (00_scope.md rule R9). -/
def clearBits (a m : Nat) : Nat := a ^^^ (a &&& m)

/-- `v[lo+n−1 : lo]`, n bits of v from bit lo up (00_scope.md rule R8). -/
def bitField (v lo n : Nat) : Nat := (v >>> lo) % 2 ^ n

end Sys2Proof.Machine
end

