-- ==== Sys2Proof/Machine/Formats.lean ====
section
/-! DEFINITION. Pixel formats: the fields of a descriptor as numbers (10_state.md rule R30), format validity (rule R31), the
constraints on the OPEN parameters (00_scope.md rule R6) and their defaults (10_state.md rule R34). -/

namespace Sys2Proof.Machine

/-- R, G, B, A: every rule's "for every channel" (00_scope.md rule R10). -/
def channels : List Chan := [.R, .G, .B, .A]

/-- The stored register of a channel. -/
def chanField (f : PixFmt) : Chan → ChanField
  | .R => f.r
  | .G => f.g
  | .B => f.b
  | .A => f.a

/-- `f.bpp` (10_state.md rule R30). -/
def bpp (f : PixFmt) : Nat := f.bpp.toNat

/-- `f.off[c]` (10_state.md rule R30). -/
def off (f : PixFmt) (c : Chan) : Nat := (chanField f c).off.toNat

/-- `f.w[c]` (10_state.md rule R30). -/
def wid (f : PixFmt) (c : Chan) : Nat := (chanField f c).wid.toNat

/-- Two channels share no bit; a channel of width 0 is absent and its offset is ignored (10_state.md rule R31, item 3). -/
def chanDisjoint (f : PixFmt) (c d : Chan) : Bool :=
  wid f c == 0 || wid f d == 0 || decide (off f c + wid f c ≤ off f d) || decide (off f d + wid f d ≤ off f c)

/-- `valid_fmt(f)` (10_state.md rule R31): bpp is 8, 16, 24 or 32, every present channel lies within bpp, and no two
present channels overlap. -/
def validFmt (f : PixFmt) : Bool :=
  (bpp f == 8 || bpp f == 16 || bpp f == 24 || bpp f == 32) &&
    channels.all (fun c => wid f c == 0 || decide (off f c + wid f c ≤ bpp f)) &&
      channels.all (fun c => channels.all (fun d => c == d || chanDisjoint f c d))

/-- The constraints 00_scope.md rule R6 puts on `BUILTIN_FMT`: every entry is valid, the bpp values are 16, 24, 24, 32, 32,
32, and slot 1 has R at offset 11, width 5. `COLORKEY_RGBA` is any 32-bit value. -/
def configLegal (c : Config) : Bool :=
  validFmt c.rgb565 && validFmt c.rgb24 && validFmt c.bgr24 && validFmt c.rgba32 && validFmt c.argb32 &&
    validFmt c.abgr32 && bpp c.rgb565 == 16 && bpp c.rgb24 == 24 && bpp c.bgr24 == 24 && bpp c.rgba32 == 32 &&
      bpp c.argb32 == 32 && bpp c.abgr32 == 32 && off c.rgb565 .R == 11 && wid c.rgb565 .R == 5

/-- An (offset, width) pair as 10_state.md rule R34 writes it. -/
def chan (off wid : Nat) : ChanField := { off := BitVec.ofNat 5 off, wid := BitVec.ofNat 6 wid }

/-- The suggested defaults: the table of 10_state.md rule R34 and the colorkey of 00_scope.md rule R6. DESIGN CHOICE of
the spec's, of use to the reset state and to tests alone (log 2). -/
def defaultConfig : Config :=
  { rgb565 := { bpp := 16, r := chan 11 5, g := chan 5 6, b := chan 0 5, a := chan 0 0 }
    rgb24 := { bpp := 24, r := chan 16 8, g := chan 8 8, b := chan 0 8, a := chan 0 0 }
    bgr24 := { bpp := 24, r := chan 0 8, g := chan 8 8, b := chan 16 8, a := chan 0 0 }
    rgba32 := { bpp := 32, r := chan 24 8, g := chan 16 8, b := chan 8 8, a := chan 0 8 }
    argb32 := { bpp := 32, r := chan 16 8, g := chan 8 8, b := chan 0 8, a := chan 24 8 }
    abgr32 := { bpp := 32, r := chan 0 8, g := chan 8 8, b := chan 16 8, a := chan 24 8 }
    colorkey := 0x00FF00FF }

/-- The descriptor whose five registers read 0: slot 7 always, slot 0 after reset (10_state.md rules R33, R35). -/
def zeroFmt : PixFmt := { bpp := 0, r := chan 0 0, g := chan 0 0, b := chan 0 0, a := chan 0 0 }

end Sys2Proof.Machine
end

