-- ==== Sys2Proof/Machine/State.lean ====
section
/-! DEFINITION. The state of the machine (10_state.md rule R20: the register block, the format table, pixel memory), with
the model's own fields for the host's side, the reasons a step can stop, and the state after reset (rule R47). -/

namespace Sys2Proof.Machine

/-- Pixel memory (10_state.md rule R44): the bytes written so far, as address and byte pairs in the one canonical form
`Memory.wf` of Machine/Ops.lean; an unlisted address reads as `unlistedByte` there, its free power-up byte. -/
abbrev Memory := List Host.Cell

/-- A bitmap descriptor register group, BASE, SIZE and FMT (10_state.md rules R28, R29). -/
structure Desc where
  base : Word
  w : BitVec 16
  h : BitVec 16
  fmt : BitVec 3
deriving DecidableEq, Repr

/-- A pair of unsigned 16-bit sizes in one register: DST_RSIZE (DW, DH) or SRC_RSIZE (SW, SH) (10_state.md rules R37,
R38). -/
structure Size where
  w : BitVec 16
  h : BitVec 16
deriving DecidableEq, Repr

/-- The fault causes of 60_exceptions.md rule R191. Recording one is a NEXT state (rule R193): it stops no step of the
model. -/
inductive FaultCode where
  /-- E_ILLEGAL: the word is reserved. -/
  | illegal
  /-- E_FORMAT: a format id the command uses is unknown. -/
  | format
  /-- E_DESC: a bitmap descriptor the command uses is invalid. -/
  | desc
  /-- E_OVERLAP: the SRC and DST footprints overlap. -/
  | overlap
deriving DecidableEq, Repr

/-- Why a step of the MODEL stops. No command and no register access raises one; the engine's own faults are recorded in
STATUS by a next state. -/
inductive Fault where
  /-- Raised by the host action MR or MW (Machine/Port.lean) whose width is not 1 to 4 bytes: MemRead and MemWrite are not
  defined there (20_memory.md rules R63, R64). Safe: the model stops where the spec gives nothing. Log 6. -/
  | hostAccessWidth
  /-- Raised by the host action MR or MW (Machine/Port.lean) that passes the top of the 2^32-byte address space: such an
  address does not exist (20_memory.md rules R61, R63, R64). Safe: the model stops where the spec gives nothing. Log 6. -/
  | hostAccessPastTop
deriving DecidableEq, Repr

/-- Why an instruction has no meaning. -/
inductive Refusal where
  /-- Raised by an arm of exec that is not modelled yet; no arm is. Safe: the model stops. -/
  | notModelled (mnemonic : String)
deriving DecidableEq, Repr

/-- The state. The first block is the register block (10_state.md rule R22) and slot 0 of the format table (rule R33), the
second pixel memory (rule R44), the third the OPEN parameters (00_scope.md rule R6), which nothing changes; the last is the
model's own (logs 3 and 4). -/
structure State where
  /-- STATUS.FAULT (10_state.md rule R24). -/
  fault : Bool
  /-- STATUS.ERR (10_state.md rule R24). -/
  err : BitVec 4
  /-- FCMD (10_state.md rule R27). -/
  fcmd : Word
  /-- SRC_BASE, SRC_SIZE, SRC_FMT (10_state.md rule R28). -/
  src : Desc
  /-- DST_BASE, DST_SIZE, DST_FMT (10_state.md rule R29). -/
  dst : Desc
  /-- DST_X (10_state.md rule R36). -/
  dstX : Word
  /-- DST_Y (10_state.md rule R36). -/
  dstY : Word
  /-- DST_RSIZE (10_state.md rule R37). -/
  dstRsize : Size
  /-- SRC_X (10_state.md rule R38). -/
  srcX : Word
  /-- SRC_Y (10_state.md rule R38). -/
  srcY : Word
  /-- SRC_RSIZE (10_state.md rule R38). -/
  srcRsize : Size
  /-- COLOR (10_state.md rule R39). -/
  color : Word
  /-- PIXIN (10_state.md rule R40). -/
  pixin : Word
  /-- PIXOUT (10_state.md rule R41). -/
  pixout : Word
  /-- FMT_BPP[0], FMT_R[0], FMT_G[0], FMT_B[0], FMT_A[0]: the NATIVE slot (10_state.md rule R33). -/
  native : PixFmt
  /-- Pixel memory (10_state.md rule R44). -/
  mem : Memory
  /-- `BUILTIN_FMT` and `COLORKEY_RGBA` (00_scope.md rule R6; 10_state.md rules R34, R42; log 2). -/
  cfg : Config
  /-- The model's own: the host's actions still to come, oldest first (log 3). -/
  host : List HostAction
  /-- The model's own: the words the host's reads returned so far, oldest first (log 4). -/
  answers : List Word
deriving DecidableEq, Repr

/-- A descriptor whose registers are 0. -/
def Desc.zero : Desc := { base := 0, w := 0, h := 0, fmt := 0 }

/-- A size register that is 0. -/
def Size.zero : Size := { w := 0, h := 0 }

/-- The machine right after reset (10_state.md rule R47), with every byte of memory at its free power-up value
(70_reset_and_hazards.md rule R222; log 1), the default parameters (log 2), and no host action to come (log 3). -/
def State.reset : State :=
  { fault := false, err := 0, fcmd := 0, src := Desc.zero, dst := Desc.zero, dstX := 0, dstY := 0, dstRsize := Size.zero,
    srcX := 0, srcY := 0, srcRsize := Size.zero, color := 0, pixin := 0, pixout := 0, native := zeroFmt, mem := [],
    cfg := defaultConfig, host := [], answers := [] }

end Sys2Proof.Machine
end

