-- ==== Sys2Proof/Machine/Flags.lean ====
section
/-! DEFINITION. The one flag register, STATUS (10_state.md rule R24), and the signal that shows it (60_exceptions.md rule
R201). No command sets a flag from a value it computes. -/

namespace Sys2Proof.Machine

/-- The code recorded in STATUS.ERR (60_exceptions.md rule R191). -/
def FaultCode.code : FaultCode → BitVec 4
  | .illegal => 1
  | .format => 2
  | .desc => 3
  | .overlap => 4

/-- STATUS as read: FAULT [0], ERR [7:4], every other bit 0 (10_state.md rules R22, R24). -/
def statusWord (s : State) : Word := BitVec.ofNat 32 (s.fault.toNat + s.err.toNat * 16)

/-- The output signal `fault_o`: the current value of STATUS.FAULT (60_exceptions.md rule R201). -/
def faultOut (s : State) : Bool := s.fault

end Sys2Proof.Machine
end

