-- ==== Sys2Proof/Machine/Operands.lean ====
section
/-! DEFINITION. Operand assembly (30_encoding.md rule R87): signed positions, unsigned sizes, the format table (10_state.md
rules R30 to R35), and a descriptor read as a bitmap (rules R28, R29, R45). -/

namespace Sys2Proof.Machine

/-- `signed32(v)` (00_scope.md rule R8). -/
def signed32 (v : Word) : Int := if v.toNat < 2 ^ 31 then (v.toNat : Int) else (v.toNat : Int) - 2 ^ 32

/-- `FMT[id]`: slot 0 is the NATIVE registers, slots 1 to 6 the parameter `BUILTIN_FMT`, slot 7 reads 0 (10_state.md rules
R30, R33, R34, R35). -/
def fmtSlot (s : State) (id : BitVec 3) : PixFmt :=
  match id.toNat with
  | 0 => s.native
  | 1 => s.cfg.rgb565
  | 2 => s.cfg.rgb24
  | 3 => s.cfg.bgr24
  | 4 => s.cfg.rgba32
  | 5 => s.cfg.argb32
  | 6 => s.cfg.abgr32
  | _ => zeroFmt

/-- `known(id)`: the slot holds a valid descriptor at this moment (10_state.md rules R32, R33). -/
def known (s : State) (id : BitVec 3) : Bool := validFmt (fmtSlot s id)

/-- A bitmap: the numbers of a descriptor, with its format looked up (10_state.md rules R28, R29; 70_reset_and_hazards.md
rule R227: the format is looked up at each command). -/
structure Bitmap where
  base : Nat
  w : Nat
  h : Nat
  fmt : PixFmt
deriving DecidableEq, Repr

/-- The bitmap a descriptor names. -/
def bitmapOf (s : State) (d : Desc) : Bitmap :=
  { base := d.base.toNat, w := d.w.toNat, h := d.h.toNat, fmt := fmtSlot s d.fmt }

/-- SRC (10_state.md rule R28). -/
def srcBitmap (s : State) : Bitmap := bitmapOf s s.src

/-- DST (10_state.md rule R29). -/
def dstBitmap (s : State) : Bitmap := bitmapOf s s.dst

/-- Bytes of one pixel, `f.bpp / 8` (20_memory.md rule R62). -/
def pixBytes (f : PixFmt) : Nat := bpp f / 8

/-- `memsize(D) = D.W · D.H · (bpp / 8)` (10_state.md rule R45; 90_conflicts.md C1). -/
def memsize (d : Bitmap) : Nat := d.w * d.h * pixBytes d.fmt

/-- `valid_desc(D)` (10_state.md rule R45). -/
def validDesc (d : Bitmap) : Bool := decide (1 ≤ d.w ∧ 1 ≤ d.h ∧ d.base + memsize d ≤ 2 ^ 32)

/-- The footprints of SRC and DST overlap (43_blit.md rule R151). -/
def overlaps (s d : Bitmap) : Bool := decide (s.base < d.base + memsize d ∧ d.base < s.base + memsize s)

/-- `PixAddr(D, x, y)` (20_memory.md rule R65). -/
def pixAddr (d : Bitmap) (x y : Nat) : Nat := d.base + (y * d.w + x) * pixBytes d.fmt

/-- `X = signed32(DST_X)` (10_state.md rule R36). -/
def dstPosX (s : State) : Int := signed32 s.dstX

/-- `Y = signed32(DST_Y)` (10_state.md rule R36). -/
def dstPosY (s : State) : Int := signed32 s.dstY

/-- `sx = signed32(SRC_X)` (10_state.md rule R38). -/
def srcPosX (s : State) : Int := signed32 s.srcX

/-- `sy = signed32(SRC_Y)` (10_state.md rule R38). -/
def srcPosY (s : State) : Int := signed32 s.srcY

end Sys2Proof.Machine
end

