-- ==== Sys2Proof/Machine/Ops.lean ====
section
/-! DEFINITION. The shared operations: pixel memory (20_memory.md rules R62 to R67), the fault record and the reset that
alone clears it (60_exceptions.md rules R193, R198; 70_reset_and_hazards.md rule R220), and the running of a command
behind its checks (30_encoding.md rule R81, 60_exceptions.md rule R192). -/

namespace Sys2Proof.Machine

/-! ### Pixel memory -/

/-- What an address that memory does not list reads as: nothing has been written there, so it still holds its power-up byte,
which is free (70_reset_and_hazards.md rule R222; log 1). -/
def unlistedByte (a : Nat) : Byte := powerUpByte a

/-- The byte written to address a, none where nothing has been written. -/
def Memory.lookup (m : Memory) (a : Nat) : Option Byte :=
  match m with
  | [] => none
  | c :: rest => if c.1 = a then some c.2 else Memory.lookup rest a

/-- `mem[a]`, the byte at address a (20_memory.md rule R63). -/
def Memory.read (m : Memory) (a : Nat) : Byte := (Memory.lookup m a).getD (unlistedByte a)

/-- The canonical form: one entry for each address that has been written, at addresses strictly rising and within the 32-bit
address space (20_memory.md rule R61). No entry equals what an unlisted address holds, which is no byte that is known
(log 1). -/
abbrev Memory.wf (m : Memory) : Prop :=
  m.Pairwise (fun c d => c.1 < d.1) ∧ ∀ c ∈ m, c.1 < 2 ^ 32

/-- The memory without an entry for a. -/
def Memory.erase (m : Memory) (a : Nat) : Memory := m.filter (fun c => c.1 != a)

/-- The memory with the entry (a, b) before the first greater address. -/
def Memory.place (m : Memory) (a : Nat) (b : Byte) : Memory :=
  match m with
  | [] => [(a, b)]
  | c :: rest => if a < c.1 then (a, b) :: c :: rest else c :: Memory.place rest a b

/-- `mem[a] <- b` (20_memory.md rule R64), keeping the canonical form. -/
def Memory.write (m : Memory) (a : Nat) (b : Byte) : Memory :=
  Memory.place (Memory.erase m a) a b

/-- `MemRead(addr, n)`, little-endian (20_memory.md rules R62, R63). -/
def memRead (m : Memory) (addr n : Nat) : Nat :=
  match n with
  | 0 => 0
  | k + 1 => (Memory.read m addr).toNat + 256 * memRead m (addr + 1) k

/-- `MemWrite(addr, n, v)`: the n low bytes of v, little-endian (20_memory.md rules R62, R64; 00_scope.md rule R10). -/
def memWrite (m : Memory) (addr n v : Nat) : Memory :=
  match n with
  | 0 => m
  | k + 1 => memWrite (Memory.write m addr (BitVec.ofNat 8 v)) (addr + 1) k (v / 256)

/-- `PixRead(D, x, y)` (20_memory.md rule R66). -/
def pixRead (m : Memory) (d : Bitmap) (x y : Nat) : Nat := memRead m (pixAddr d x y) (pixBytes d.fmt)

/-- `PixWrite(D, x, y, p)` (20_memory.md rule R67). -/
def pixWrite (m : Memory) (d : Bitmap) (x y p : Nat) : Memory := memWrite m (pixAddr d x y) (pixBytes d.fmt) p

/-! ### Faults and reset -/

/-- `raise Fault(code)` by the command word cw: STATUS.FAULT, STATUS.ERR and FCMD, and nothing else (60_exceptions.md rule
R193). -/
def raiseFault (code : FaultCode) (cw : Word) (s : State) : State :=
  { s with fault := true, err := code.code, fcmd := cw }

/-- A reset (70_reset_and_hazards.md rule R220, 10_state.md rule R47), the only way out of the faulted state
(60_exceptions.md rule R198): every register 0, slot 0 unpopulated; the constants and pixel memory are unaffected, and so is
the host (log 3). -/
def resetRegs (s : State) : State :=
  { s with
    fault := false, err := 0, fcmd := 0, src := Desc.zero, dst := Desc.zero, dstX := 0, dstY := 0,
    dstRsize := Size.zero, srcX := 0, srcY := 0, srcRsize := Size.zero, color := 0, pixin := 0, pixout := 0,
    native := zeroFmt }

/-! ### Running a command -/

/-- The fault of the first check that fails (60_exceptions.md rule R192). -/
def firstFailing : List (Bool × FaultCode) → Option FaultCode
  | [] => none
  | (ok, code) :: rest => if ok then firstFailing rest else some code

/-- A command behind its checks: ignored while STATUS.FAULT is 1 (60_exceptions.md rule R196, step 0 of rule R192; log 13),
else the first check that fails raises its fault, else the effect (30_encoding.md rule R81). -/
def runCommand (i : Instr) (checks : List (Bool × FaultCode)) (effect : State → State) (s : State) :
    Host.Outcome State Fault Refusal :=
  if s.fault then .next s
  else
    match firstFailing checks with
    | some code => .next (raiseFault code (encode i) s)
    | none => .next (effect s)

/-- Steps 2 and 3 of 60_exceptions.md rule R192 for CONVERT. -/
def convertChecks (s : State) : List (Bool × FaultCode) :=
  [(known s s.src.fmt, .format), (known s s.dst.fmt, .format)]

/-- Step 3 of 60_exceptions.md rule R192 for ENCODE. -/
def encodeChecks (s : State) : List (Bool × FaultCode) :=
  [(known s s.dst.fmt, .format)]

/-- Steps 3 and 5 of 60_exceptions.md rule R192 for PUTPIXEL, PUTPIXEL.ADD and CLEAR (42_pixel_ops.md rule R143). -/
def pixelChecks (s : State) : List (Bool × FaultCode) :=
  [(known s s.dst.fmt, .format), (validDesc (dstBitmap s), .desc)]

/-- Steps 2 to 6 of 60_exceptions.md rule R192 for every BLIT form, SBLIT and SRBLIT (43_blit.md rule R150). -/
def blitChecks (s : State) : List (Bool × FaultCode) :=
  [(known s s.src.fmt, .format), (known s s.dst.fmt, .format), (validDesc (srcBitmap s), .desc),
    (validDesc (dstBitmap s), .desc), (!overlaps (srcBitmap s) (dstBitmap s), .overlap)]

end Sys2Proof.Machine
end

