-- ==== Sys2Proof/Machine/Convert.lean ====
section
/-! DEFINITION. The converter CONV (40_convert.md) and the commands CONVERT and ENCODE. -/

namespace Sys2Proof.Machine

/-- `mask(f, c)` (40_convert.md rule R100). -/
def chanMask (f : PixFmt) (c : Chan) : Nat := ones (wid f c) <<< off f c

/-- `chan_get(f, c, p)` (40_convert.md rule R100). -/
def chanGet (f : PixFmt) (c : Chan) (p : Nat) : Nat := (p >>> off f c) &&& ones (wid f c)

/-- `chan_put(f, c, v)` (40_convert.md rule R100). -/
def chanPut (f : PixFmt) (c : Chan) (v : Nat) : Nat := v <<< off f c

/-- `rescale(v, ws, wd)`: truncating or zero-filling (40_convert.md rule R101). -/
def rescale (v ws wd : Nat) : Nat :=
  if wd < ws then v >>> (ws - wd) else if ws < wd then v <<< (wd - ws) else v

/-- The lowest bit of channel k of a canonical colour (00_scope.md rule R11: R 0–7, G 8–15, B 16–23, A 24–31). -/
def canonicalBit : Chan → Nat
  | .R => 0
  | .G => 8
  | .B => 16
  | .A => 24

/-- `can(c, k)` (00_scope.md rule R11). -/
def canonical (c : Nat) (k : Chan) : Nat := bitField c (canonicalBit k) 8

/-- "OR over k in {R,G,B,A}" (40_convert.md rules R104, R105). -/
def orChannels (g : Chan → Nat) : Nat := g .R ||| g .G ||| g .B ||| g .A

/-- `encode(f, c)` (40_convert.md rule R104). -/
def encodePixel (f : PixFmt) (c : Nat) : Nat :=
  orChannels fun k => chanPut f k (rescale (canonical c k) 8 (wid f k))

/-- `convert_ch(fs, fd, p)` (40_convert.md rule R105). -/
def convertChannels (fs fd : PixFmt) (p : Nat) : Nat :=
  orChannels fun k => chanPut fd k (rescale (chanGet fs k p) (wid fs k) (wid fd k))

/-- `convert(ids, idd, p)`: the identity for equal ids, not for equal descriptors (40_convert.md rule R106). -/
def convertPixel (s : State) (ids idd : BitVec 3) (p : Nat) : Nat :=
  if ids = idd then p else convertChannels (fmtSlot s ids) (fmtSlot s idd) p

/-- `decode8(f, c, p)` (40_convert.md rule R112). -/
def decode8 (f : PixFmt) (c : Chan) (p : Nat) : Nat := rescale (chanGet f c p) (wid f c) 8

/-- PIXOUT of CONVERT (40_convert.md rules R109, R110). -/
def convertEffect (s : State) : State :=
  { s with pixout := BitVec.ofNat 32 (convertPixel s s.src.fmt s.dst.fmt s.pixin.toNat) }

/-- PIXOUT of ENCODE (40_convert.md rule R111). -/
def encodeEffect (s : State) : State :=
  { s with pixout := BitVec.ofNat 32 (encodePixel (fmtSlot s s.dst.fmt) s.color.toNat) }

/-- CONVERT (40_convert.md rule R110). -/
def execConvert (s : State) : Host.Outcome State Fault Refusal :=
  runCommand .convert (convertChecks s) convertEffect s

/-- ENCODE (40_convert.md rule R111). -/
def execEncode (s : State) : Host.Outcome State Fault Refusal :=
  runCommand .encode (encodeChecks s) encodeEffect s

end Sys2Proof.Machine
end

