-- ==== Sys2Proof/Machine/Combine.lean ====
section
/-! DEFINITION. The combine unit COMB (41_combine.md): replace, colorkey-skip and additive blend, and the action at one
destination pixel. -/

namespace Sys2Proof.Machine

/-- One channel of the additive blend: decode both to 8 bits, add, clamp at 255, re-encode into the field of `out`
(41_combine.md rule R124). -/
def addChannel (f : PixFmt) (d p : Nat) (out : Nat) (c : Chan) : Nat :=
  if 0 < wid f c then
    clearBits out (chanMask f c) |||
      chanPut f c (rescale (min 255 (decode8 f c d + decode8 f c p)) 8 (wid f c))
  else out

/-- `add_pix(f, d, s')`: R, G and B in turn; alpha and uncovered bits keep the value they had in d (41_combine.md rules
R124, R125). -/
def addPixel (f : PixFmt) (d p : Nat) : Nat :=
  [Chan.R, Chan.G, Chan.B].foldl (addChannel f d p) d

/-- `keypix(ids)`: the colorkey encoded into the source format (41_combine.md rule R123). -/
def keyPixel (s : State) (ids : BitVec 3) : Nat := encodePixel (fmtSlot s ids) s.cfg.colorkey.toNat

/-- The combine of a converted source pixel p into destination pixel (x, y): ADD reads the old pixel, REPLACE and KEY do
not (41_combine.md rules R121, R124, R127; 20_memory.md rule R70). -/
def combineWrite (comb : Comb) (d : Bitmap) (x y p : Nat) (m : Memory) : Memory :=
  match comb with
  | .replace => pixWrite m d x y p
  | .key => pixWrite m d x y p
  | .add => pixWrite m d x y (addPixel d.fmt (pixRead m d x y) p)

/-- `emit(comb, x, y, s)`: the colorkey test on the raw source pixel p, then the conversion, then the combine (41_combine.md
rule R120). The registers are those of the command's start (70_reset_and_hazards.md rule R226). -/
def emit (s : State) (comb : Comb) (x y p : Nat) (m : Memory) : Memory :=
  if comb = .key ∧ p = keyPixel s s.src.fmt then m
  else combineWrite comb (dstBitmap s) x y (convertPixel s s.src.fmt s.dst.fmt p) m

end Sys2Proof.Machine
end

