-- ==== Sys2Proof/Machine/PixelOps.lean ====
section
/-! DEFINITION. The commands without a source bitmap: PUTPIXEL, PUTPIXEL.ADD and CLEAR (42_pixel_ops.md). -/

namespace Sys2Proof.Machine

/-- The index pairs (column, row) of a rectangle of `cols` columns and `rows` rows, rows ascending and within a row columns
ascending (20_memory.md rule R72). -/
def rectIndices (cols rows : Nat) : List (Nat × Nat) :=
  (List.range rows).flatMap fun j => (List.range cols).map fun i => (i, j)

/-- (X, Y) lies in the destination bitmap (42_pixel_ops.md rule R140). -/
def pixelInBounds (s : State) : Bool :=
  decide (0 ≤ dstPosX s ∧ dstPosX s < (dstBitmap s).w ∧ 0 ≤ dstPosY s ∧ dstPosY s < (dstBitmap s).h)

/-- COLOR in the destination format (41_combine.md rule R127). -/
def colorPixel (s : State) : Nat := encodePixel (dstBitmap s).fmt s.color.toNat

/-- The single-pixel write with a combine; silently nothing out of bounds (42_pixel_ops.md rules R140, R141). -/
def putPixelEffect (comb : Comb) (s : State) : State :=
  if pixelInBounds s then
    { s with mem := combineWrite comb (dstBitmap s) (dstPosX s).toNat (dstPosY s).toNat (colorPixel s) s.mem }
  else s

/-- The destination pixels CLEAR visits, in order: all of them (42_pixel_ops.md rules R142, R143). -/
def clearPixels (s : State) : List (Nat × Nat) := rectIndices (dstBitmap s).w (dstBitmap s).h

/-- The fill (42_pixel_ops.md rule R142); the colour is encoded once. -/
def clearEffect (s : State) : State :=
  { s with mem := (clearPixels s).foldl (fun m q => pixWrite m (dstBitmap s) q.1 q.2 (colorPixel s)) s.mem }

/-- PUTPIXEL (42_pixel_ops.md rule R140). -/
def execPutpixel (s : State) : Host.Outcome State Fault Refusal :=
  runCommand .putpixel (pixelChecks s) (putPixelEffect .replace) s

/-- PUTPIXEL.ADD (42_pixel_ops.md rule R141). -/
def execPutpixelAdd (s : State) : Host.Outcome State Fault Refusal :=
  runCommand .putpixelAdd (pixelChecks s) (putPixelEffect .add) s

/-- CLEAR (42_pixel_ops.md rule R142). -/
def execClear (s : State) : Host.Outcome State Fault Refusal :=
  runCommand .clear (pixelChecks s) clearEffect s

end Sys2Proof.Machine
end

