-- ==== Sys2Proof/Machine/Blit.lean ====
section
/-! DEFINITION. The unscaled blit: clipping, horizontal flip and the six BLIT commands (43_blit.md). -/

namespace Sys2Proof.Machine

/-- One axis of the clip window: the first source index, the first destination index and the count, in ℤ (43_blit.md rule
R152). -/
structure AxisClip where
  src0 : Int
  dst0 : Int
  count : Int
deriving DecidableEq, Repr

/-- The clip of one axis at offset `o`, with `sn` source and `dn` destination indices (43_blit.md rule R152). -/
def clipAxis (o : Int) (sn dn : Nat) : AxisClip :=
  { src0 := max 0 (-o), dst0 := max 0 o, count := min ((sn : Int) - max 0 (-o)) ((dn : Int) - max 0 o) }

/-- sx0, dx0 and cols (43_blit.md rule R152). -/
def clipX (s : State) : AxisClip := clipAxis (dstPosX s) (srcBitmap s).w (dstBitmap s).w

/-- sy0, dy0 and rows (43_blit.md rule R152). -/
def clipY (s : State) : AxisClip := clipAxis (dstPosY s) (srcBitmap s).h (dstBitmap s).h

/-- One pixel of a blit: destination (x, y) from source (u, v). -/
structure Move where
  x : Nat
  y : Nat
  u : Nat
  v : Nat
deriving DecidableEq, Repr

/-- The source column of the i-th processed column: mirror, then clip (43_blit.md rules R154, R161). -/
def blitColumn (s : State) (hflip : Bool) (i : Nat) : Int :=
  if hflip then ((srcBitmap s).w : Int) - 1 - ((clipX s).src0 + i) else (clipX s).src0 + i

/-- The pixels a blit processes, in order (43_blit.md rule R154); none when cols ≤ 0 or rows ≤ 0 (rule R152). -/
def blitMoves (s : State) (hflip : Bool) : List Move :=
  (rectIndices (clipX s).count.toNat (clipY s).count.toNat).map fun q =>
    { x := ((clipX s).dst0 + q.1).toNat, y := ((clipY s).dst0 + q.2).toNat,
      u := (blitColumn s hflip q.1).toNat, v := ((clipY s).src0 + q.2).toNat }

/-- Each pixel in turn: the source read, then emit (43_blit.md rule R154, 20_memory.md rule R72). -/
def runMoves (s : State) (comb : Comb) (moves : List Move) (m : Memory) : Memory :=
  moves.foldl (fun m q => emit s comb q.x q.y (pixRead m (srcBitmap s) q.u q.v) m) m

/-- `blit_core(comb, hflip)` after its checks (43_blit.md rule R154). -/
def blitCore (comb : Comb) (hflip : Bool) (s : State) : State :=
  { s with mem := runMoves s comb (blitMoves s hflip) s.mem }

/-- BLIT (43_blit.md rule R155). -/
def execBlit (s : State) : Host.Outcome State Fault Refusal :=
  runCommand .blit (blitChecks s) (blitCore .replace false) s

/-- BLIT.KEY (43_blit.md rule R156). -/
def execBlitKey (s : State) : Host.Outcome State Fault Refusal :=
  runCommand .blitKey (blitChecks s) (blitCore .key false) s

/-- BLIT.ADD (43_blit.md rule R157). -/
def execBlitAdd (s : State) : Host.Outcome State Fault Refusal :=
  runCommand .blitAdd (blitChecks s) (blitCore .add false) s

/-- BLIT.HFLIP (43_blit.md rule R158). -/
def execBlitHflip (s : State) : Host.Outcome State Fault Refusal :=
  runCommand .blitHflip (blitChecks s) (blitCore .replace true) s

/-- BLIT.KEY.HFLIP (43_blit.md rule R159). -/
def execBlitKeyHflip (s : State) : Host.Outcome State Fault Refusal :=
  runCommand .blitKeyHflip (blitChecks s) (blitCore .key true) s

/-- BLIT.ADD.HFLIP (43_blit.md rule R160). -/
def execBlitAddHflip (s : State) : Host.Outcome State Fault Refusal :=
  runCommand .blitAddHflip (blitChecks s) (blitCore .add true) s

end Sys2Proof.Machine
end

