-- ==== Sys2Proof/Machine/Scaler.lean ====
section
/-! DEFINITION. The scaler SCAL (44_scaler.md): the nearest-neighbour index, per-pixel clipping, and the commands SBLIT and
SRBLIT. -/

namespace Sys2Proof.Machine

/-- `nn(i, sn, dn) = (i · sn) div dn`, for dn > 0 (44_scaler.md rule R171). -/
def nearest (i sn dn : Nat) : Nat := i * sn / dn

/-- The arguments of `scaled_core`: the source rectangle (sx, sy, sw, sh) and the destination rectangle (dx, dy, dw, dh)
(44_scaler.md rule R172). -/
structure ScaleRect where
  sx : Int
  sy : Int
  sw : Nat
  sh : Nat
  dx : Int
  dy : Int
  dw : Nat
  dh : Nat
deriving DecidableEq, Repr

/-- The index lies in 0 .. n − 1. -/
def inRange (i : Int) (n : Nat) : Bool := decide (0 ≤ i ∧ i < n)

/-- The move of the index pair (i, j), if both its destination pixel and its sample lie in their bitmaps (44_scaler.md
rules R172, R174). -/
def scaledMove (s : State) (r : ScaleRect) (q : Nat × Nat) : Option Move :=
  let tx := r.dx + q.1
  let ty := r.dy + q.2
  let u := r.sx + nearest q.1 r.sw r.dw
  let v := r.sy + nearest q.2 r.sh r.dh
  if inRange tx (dstBitmap s).w && inRange ty (dstBitmap s).h && inRange u (srcBitmap s).w && inRange v (srcBitmap s).h then
    some { x := tx.toNat, y := ty.toNat, u := u.toNat, v := v.toNat }
  else none

/-- The pixels `scaled_core` copies, in order; none when a size is 0 (44_scaler.md rules R172, R173). -/
def scaledMoves (s : State) (r : ScaleRect) : List Move :=
  if r.sw = 0 ∨ r.sh = 0 ∨ r.dw = 0 ∨ r.dh = 0 then [] else (rectIndices r.dw r.dh).filterMap (scaledMove s r)

/-- `scaled_core` after its checks (44_scaler.md rule R172). -/
def scaledCore (r : State → ScaleRect) (s : State) : State :=
  { s with mem := runMoves s .replace (scaledMoves s (r s)) s.mem }

/-- The rectangles of SBLIT: the whole source, onto DST_RSIZE at (X, Y) (44_scaler.md rule R175). -/
def sblitRect (s : State) : ScaleRect :=
  { sx := 0, sy := 0, sw := (srcBitmap s).w, sh := (srcBitmap s).h, dx := dstPosX s, dy := dstPosY s,
    dw := s.dstRsize.w.toNat, dh := s.dstRsize.h.toNat }

/-- The rectangles of SRBLIT (44_scaler.md rule R176). -/
def srblitRect (s : State) : ScaleRect :=
  { sx := srcPosX s, sy := srcPosY s, sw := s.srcRsize.w.toNat, sh := s.srcRsize.h.toNat, dx := dstPosX s,
    dy := dstPosY s, dw := s.dstRsize.w.toNat, dh := s.dstRsize.h.toNat }

/-- SBLIT (44_scaler.md rule R175). -/
def execSblit (s : State) : Host.Outcome State Fault Refusal :=
  runCommand .sblit (blitChecks s) (scaledCore sblitRect) s

/-- SRBLIT (44_scaler.md rule R176). -/
def execSrblit (s : State) : Host.Outcome State Fault Refusal :=
  runCommand .srblit (blitChecks s) (scaledCore srblitRect) s

end Sys2Proof.Machine
end

