-- ==== Sys2Proof/Machine/Dispatch.lean ====
section
/-! DEFINITION. One arm per command: each calls its meaning. -/

namespace Sys2Proof.Machine

def exec (i : Instr) (s : State) : Host.Outcome State Fault Refusal :=
  match i with
  | .convert => Sys2Proof.Machine.execConvert s
  | .encode => Sys2Proof.Machine.execEncode s
  | .putpixel => Sys2Proof.Machine.execPutpixel s
  | .putpixelAdd => Sys2Proof.Machine.execPutpixelAdd s
  | .clear => Sys2Proof.Machine.execClear s
  | .blit => Sys2Proof.Machine.execBlit s
  | .blitKey => Sys2Proof.Machine.execBlitKey s
  | .blitAdd => Sys2Proof.Machine.execBlitAdd s
  | .blitHflip => Sys2Proof.Machine.execBlitHflip s
  | .blitKeyHflip => Sys2Proof.Machine.execBlitKeyHflip s
  | .blitAddHflip => Sys2Proof.Machine.execBlitAddHflip s
  | .sblit => Sys2Proof.Machine.execSblit s
  | .srblit => Sys2Proof.Machine.execSrblit s

end Sys2Proof.Machine
end

