-- ==== Sys2Proof/Machine/Port.lean ====
section
/-! DEFINITION. The register port (10_state.md rules R22 to R27): the register map, register reads and writes, and the
effect of each host action (30_encoding.md rule R90). The effect of a CMD write takes the meaning of a command, exec, as an
argument, so that Machine/Step.lean only supplies it. -/

namespace Sys2Proof.Machine

/-- The registers of 10_state.md rule R22. -/
inductive Reg where
  | status | cmd | reset | fcmd
  | srcBase | srcSize | srcFmt
  | dstBase | dstSize | dstFmt
  | dstX | dstY | dstRsize
  | srcX | srcY | srcRsize
  | color | pixin | pixout | key
  /-- FMT_BPP[id]. -/
  | fmtBpp (id : BitVec 3)
  /-- FMT_R[id], FMT_G[id], FMT_B[id], FMT_A[id]. -/
  | fmtChan (id : BitVec 3) (c : Chan)
deriving DecidableEq, Repr

/-- The map of 10_state.md rule R22 below the format table: byte offset and register. -/
def regMap : List (Nat × Reg) :=
  [(0x00, .status), (0x04, .cmd), (0x08, .reset), (0x0C, .fcmd), (0x10, .srcBase), (0x14, .srcSize), (0x18, .srcFmt),
    (0x20, .dstBase), (0x24, .dstSize), (0x28, .dstFmt), (0x30, .dstX), (0x34, .dstY), (0x38, .dstRsize),
    (0x40, .srcX), (0x44, .srcY), (0x48, .srcRsize), (0x50, .color), (0x54, .pixin), (0x58, .pixout), (0x5C, .key)]

/-- The register of a format slot at byte offset `o` within the slot; 0x14 to 0x1C are undefined (10_state.md rule R22). -/
def slotReg (id : BitVec 3) (o : Nat) : Option Reg :=
  match o with
  | 0x00 => some (.fmtBpp id)
  | 0x04 => some (.fmtChan id .R)
  | 0x08 => some (.fmtChan id .G)
  | 0x0C => some (.fmtChan id .B)
  | 0x10 => some (.fmtChan id .A)
  | _ => none

/-- The register at a byte offset, if rule R22 of 10_state.md defines one there. -/
def regAt (o : Nat) : Option Reg :=
  if 0x100 ≤ o ∧ o < 0x200 then slotReg (BitVec.ofNat 3 ((o - 0x100) / 0x20)) ((o - 0x100) % 0x20)
  else regMap.lookup o

/-- W [15:0] and H [31:16] as one word (10_state.md rule R22). -/
def sizeWord (w h : BitVec 16) : Word := h ++ w

/-- The W field of a written word. -/
def wordLow (v : Word) : BitVec 16 := v.extractLsb' 0 16

/-- The H field of a written word. -/
def wordHigh (v : Word) : BitVec 16 := v.extractLsb' 16 16

/-- OFF [4:0] and WID [13:8] as one word, the other bits 0 (10_state.md rule R22). -/
def chanWord (f : ChanField) : Word := BitVec.ofNat 32 (f.off.toNat + f.wid.toNat * 2 ^ 8)

/-- The fields of a written channel word. -/
def wordChan (v : Word) : ChanField := { off := v.extractLsb' 0 5, wid := v.extractLsb' 8 6 }

/-- A format with one channel register replaced. -/
def setChan (f : PixFmt) (c : Chan) (v : ChanField) : PixFmt :=
  match c with
  | .R => { f with r := v }
  | .G => { f with g := v }
  | .B => { f with b := v }
  | .A => { f with a := v }

/-- A register read: write-only registers and unimplemented bits read 0, no side effect (10_state.md rules R22 to R42). -/
def regRead (s : State) : Reg → Word
  | .status => statusWord s
  | .cmd => 0
  | .reset => 0
  | .fcmd => s.fcmd
  | .srcBase => s.src.base
  | .srcSize => sizeWord s.src.w s.src.h
  | .srcFmt => s.src.fmt.setWidth 32
  | .dstBase => s.dst.base
  | .dstSize => sizeWord s.dst.w s.dst.h
  | .dstFmt => s.dst.fmt.setWidth 32
  | .dstX => s.dstX
  | .dstY => s.dstY
  | .dstRsize => sizeWord s.dstRsize.w s.dstRsize.h
  | .srcX => s.srcX
  | .srcY => s.srcY
  | .srcRsize => sizeWord s.srcRsize.w s.srcRsize.h
  | .color => s.color
  | .pixin => s.pixin
  | .pixout => s.pixout
  | .key => s.cfg.colorkey
  | .fmtBpp id => (fmtSlot s id).bpp.setWidth 32
  | .fmtChan id c => chanWord (chanField (fmtSlot s id) c)

/-- A register write other than to CMD (10_state.md rules R22, R23, R26, R33): every defined field of an RW register is
replaced whatever the value, RO registers ignore it, and a 1 in bit 0 of RESET is a reset. -/
def regWrite (s : State) (v : Word) : Reg → State
  | .status => s
  | .cmd => s
  | .reset => if v.getLsbD 0 then resetRegs s else s
  | .fcmd => s
  | .srcBase => { s with src := { s.src with base := v } }
  | .srcSize => { s with src := { s.src with w := wordLow v, h := wordHigh v } }
  | .srcFmt => { s with src := { s.src with fmt := v.extractLsb' 0 3 } }
  | .dstBase => { s with dst := { s.dst with base := v } }
  | .dstSize => { s with dst := { s.dst with w := wordLow v, h := wordHigh v } }
  | .dstFmt => { s with dst := { s.dst with fmt := v.extractLsb' 0 3 } }
  | .dstX => { s with dstX := v }
  | .dstY => { s with dstY := v }
  | .dstRsize => { s with dstRsize := { w := wordLow v, h := wordHigh v } }
  | .srcX => { s with srcX := v }
  | .srcY => { s with srcY := v }
  | .srcRsize => { s with srcRsize := { w := wordLow v, h := wordHigh v } }
  | .color => { s with color := v }
  | .pixin => { s with pixin := v }
  | .pixout => s
  | .key => s
  | .fmtBpp id => if id = 0 then { s with native := { s.native with bpp := v.extractLsb' 0 6 } } else s
  | .fmtChan id c => if id = 0 then { s with native := setChan s.native c (wordChan v) } else s

/-- A write of `cw` to CMD: no effect while STATUS.FAULT is 1 (60_exceptions.md rule R196); a reserved word raises E_ILLEGAL
(30_encoding.md rule R85); a legal one runs its command (rule R81). -/
def cmdWrite (run : Instr → State → Host.Outcome State Fault Refusal) (cw : Word) (s : State) :
    Host.Outcome State Fault Refusal :=
  if s.fault then .next s
  else
    match decode cw with
    | .error _ => .next (raiseFault .illegal cw s)
    | .ok i => run i s

/-- A host write to the register port at byte offset `o`; an undefined offset ignores it (10_state.md rule R23). -/
def portWrite (run : Instr → State → Host.Outcome State Fault Refusal) (o : Nat) (v : Word) (s : State) :
    Host.Outcome State Fault Refusal :=
  match regAt o with
  | none => .next s
  | some .cmd => cmdWrite run v s
  | some r => .next (regWrite s v r)

/-- A host read of the register port at byte offset `o`; an undefined offset reads 0 (10_state.md rule R23). -/
def portRead (o : Nat) (s : State) : Word :=
  match regAt o with
  | none => 0
  | some r => regRead s r

/-- The stop of a host memory access that the spec does not define (20_memory.md rules R63, R64; log 6). -/
def accessStop (addr n : Nat) : Option Fault :=
  if n = 0 ∨ 4 < n then some .hostAccessWidth else if 2 ^ 32 < addr + n then some .hostAccessPastTop else none

/-- The value a read returned, handed to the host (log 4). -/
def answer (v : Word) (s : State) : State := { s with answers := s.answers ++ [v] }

/-- One host action (00_scope.md rule R12, 30_encoding.md rule R90; logs 10 and 12). -/
def hostAction (run : Instr → State → Host.Outcome State Fault Refusal) (a : HostAction) (s : State) :
    Host.Outcome State Fault Refusal :=
  match a with
  | .wr idx v => portWrite run (4 * idx) v s
  | .rd idx => .next (answer (portRead (4 * idx) s) s)
  | .mw addr n v =>
    match accessStop addr.toNat n with
    | some f => .fault f
    | none => .next { s with mem := memWrite s.mem addr.toNat n v.toNat }
  | .mr addr n =>
    match accessStop addr.toNat n with
    | some f => .fault f
    | none => .next (answer (BitVec.ofNat 32 (memRead s.mem addr.toNat n)) s)
  | .resetInput => .next (resetRegs s)

/-- One step: the next host action (20_memory.md rule R73); with none to come the engine is idle (10_state.md rule R48). -/
def hostStep (run : Instr → State → Host.Outcome State Fault Refusal) (s : State) : Host.Outcome State Fault Refusal :=
  match s.host with
  | [] => .next s
  | a :: rest => hostAction run a { s with host := rest }

/-- The word index of CMD, at byte offset 0x04 (10_state.md rule R22). -/
def cmdIndex : Nat := 1

/-- The state whose next host action writes the command word `w` to CMD: a command enters the machine in no other way
(10_state.md rule R21, 20_memory.md rule R75; log 3). -/
def placeCommand (s : State) (w : Word) : State := { s with host := .wr cmdIndex w :: s.host }

end Sys2Proof.Machine
end

