-- ==== Sys2Proof/Machine/Step.lean ====
section
/-! DEFINITION. The step: one host action, with exec as the meaning of a command (00_scope.md rule R12). -/

namespace Sys2Proof.Machine

/-- One step of the machine: "one step per host action, and the step for a CMD write contains the whole command"
(00_scope.md rule R12). -/
def step (s : State) : Host.Outcome State Fault Refusal := hostStep exec s

/-- The state whose very next step runs the instruction with bits `w` (numbered as the opcode table numbers them): a write
of that word to CMD is put before the host's other actions. Log 3. -/
def State.withFetchWord (s : State) (nbits w : Nat) : State := placeCommand s (BitVec.ofNat 32 (w % 2 ^ nbits))

end Sys2Proof.Machine
end

