-- ==== Sys2Proof/Machine/HostApi.lean ====
section
/-! DEFINITION. The host-action notation and the pseudo-instructions (30_encoding.md rules R90, R91): each API call of the
source as its fixed sequence of host actions. -/

namespace Sys2Proof.Machine

/-- The byte offset of a register (10_state.md rule R22). -/
def regOffset : Reg → Nat
  | .status => 0x00
  | .cmd => 0x04
  | .reset => 0x08
  | .fcmd => 0x0C
  | .srcBase => 0x10
  | .srcSize => 0x14
  | .srcFmt => 0x18
  | .dstBase => 0x20
  | .dstSize => 0x24
  | .dstFmt => 0x28
  | .dstX => 0x30
  | .dstY => 0x34
  | .dstRsize => 0x38
  | .srcX => 0x40
  | .srcY => 0x44
  | .srcRsize => 0x48
  | .color => 0x50
  | .pixin => 0x54
  | .pixout => 0x58
  | .key => 0x5C
  | .fmtBpp id => 0x100 + 0x20 * id.toNat
  | .fmtChan id .R => 0x104 + 0x20 * id.toNat
  | .fmtChan id .G => 0x108 + 0x20 * id.toNat
  | .fmtChan id .B => 0x10C + 0x20 * id.toNat
  | .fmtChan id .A => 0x110 + 0x20 * id.toNat

/-- `WR <REG>, <value>` (30_encoding.md rule R90). -/
def wrReg (r : Reg) (v : Word) : HostAction := .wr (regOffset r / 4) v

/-- `RD <REG>` (30_encoding.md rule R90). -/
def rdReg (r : Reg) : HostAction := .rd (regOffset r / 4)

/-- `CMD <mnemonic>` (30_encoding.md rule R90). -/
def cmd (i : Instr) : HostAction := wrReg .cmd (encode i)

/-- `RESET`, which is `WR RESET, 1` (30_encoding.md rule R90). -/
def resetByWrite : HostAction := wrReg .reset 1

/-- `WR FMT_c[0], (off, w)` as a value (30_encoding.md rule R90). -/
def chanValue (off w : Nat) : Word := BitVec.ofNat 32 (w * 2 ^ 8 + off)

/-- `SETSRC S` (30_encoding.md rule R91). -/
def setSrc (d : Desc) : List HostAction :=
  [wrReg .srcBase d.base, wrReg .srcSize (sizeWord d.w d.h), wrReg .srcFmt (d.fmt.setWidth 32)]

/-- `SETDST Dd` (30_encoding.md rule R91). -/
def setDst (d : Desc) : List HostAction :=
  [wrReg .dstBase d.base, wrReg .dstSize (sizeWord d.w d.h), wrReg .dstFmt (d.fmt.setWidth 32)]

/-- `blit(Dd, S, x, y)`, and with another BLIT form `blit_hflip`, `blit_masked` and `blit_blend_add` (30_encoding.md rule
R91). -/
def apiBlit (form : Instr) (d s : Desc) (x y : Word) : List HostAction :=
  setDst d ++ setSrc s ++ [wrReg .dstX x, wrReg .dstY y, cmd form]

/-- `scaled_blit(Dd, S, x, y, dw, dh)` (30_encoding.md rule R91). -/
def apiScaledBlit (d s : Desc) (x y : Word) (r : Size) : List HostAction :=
  setDst d ++ setSrc s ++ [wrReg .dstX x, wrReg .dstY y, wrReg .dstRsize (sizeWord r.w r.h), cmd .sblit]

/-- `scaled_region_blit(Dd, S, sx, sy, sw, sh, dx, dy, dw, dh)` (30_encoding.md rule R91). -/
def apiScaledRegionBlit (d s : Desc) (sx sy : Word) (sr : Size) (dx dy : Word) (dr : Size) : List HostAction :=
  setDst d ++ setSrc s ++
    [wrReg .srcX sx, wrReg .srcY sy, wrReg .srcRsize (sizeWord sr.w sr.h), wrReg .dstX dx, wrReg .dstY dy,
      wrReg .dstRsize (sizeWord dr.w dr.h), cmd .srblit]

/-- `put_pixel(Dd, x, y, rgba)` (30_encoding.md rule R91). -/
def apiPutPixel (d : Desc) (x y rgba : Word) : List HostAction :=
  setDst d ++ [wrReg .dstX x, wrReg .dstY y, wrReg .color rgba, cmd .putpixel]

/-- `clear(Dd, rgba)` (30_encoding.md rule R91). -/
def apiClear (d : Desc) (rgba : Word) : List HostAction :=
  setDst d ++ [wrReg .color rgba, cmd .clear]

/-- `encode(fmt, rgba)` (30_encoding.md rule R91). -/
def apiEncode (fmt : BitVec 3) (rgba : Word) : List HostAction :=
  [wrReg .dstFmt (fmt.setWidth 32), wrReg .color rgba, cmd .encode, rdReg .pixout]

/-- `convert(sf, df, p)` (30_encoding.md rule R91). -/
def apiConvert (sf df : BitVec 3) (p : Word) : List HostAction :=
  [wrReg .srcFmt (sf.setWidth 32), wrReg .dstFmt (df.setWidth 32), wrReg .pixin p, cmd .convert, rdReg .pixout]

end Sys2Proof.Machine
end

