-- ==== Sys2Proof/Safety.lean ====
section
/-! DEFINITION. The terms in which claims speak of the machine: runs and when one has gone wrong (70_reset_and_hazards.md
rule R231), the table of checks (60_exceptions.md rule R192), footprints (20_memory.md rule R65), the value of a combined
pixel (41_combine.md rule R120), the pixels a command visits (70_reset_and_hazards.md rule R230), and the invariant of the
machine. No meaning uses them. -/

namespace Sys2Proof.Machine

/-! ### Runs -/

/-- The run of a finite list of host actions from a state (70_reset_and_hazards.md rule R231). -/
def runHost (acts : List HostAction) (s : State) : Host.Outcome State Fault Refusal :=
  Host.Core.run Sys2Proof.core acts.length { s with host := acts }

/-- "A run has gone wrong when STATUS.FAULT = 1 at its end" (70_reset_and_hazards.md rule R231). -/
def goneWrong (s : State) : Bool := s.fault

/-! ### The checks -/

/-- The column of 60_exceptions.md rule R192 a command stands in: CONVERT, ENCODE, the pixel commands, the blits. -/
inductive CheckColumn where
  | convert | encode | pixel | blit
deriving DecidableEq, Repr

/-- The column of a command (60_exceptions.md rule R192). -/
def checkColumn : Instr → CheckColumn
  | .convert => .convert
  | .encode => .encode
  | .putpixel => .pixel
  | .putpixelAdd => .pixel
  | .clear => .pixel
  | .blit => .blit
  | .blitKey => .blit
  | .blitAdd => .blit
  | .blitHflip => .blit
  | .blitKeyHflip => .blit
  | .blitAddHflip => .blit
  | .sblit => .blit
  | .srblit => .blit

/-- Steps 2 to 6 of the table of 60_exceptions.md rule R192, row by row: the fault of the first check that fails. -/
def tableFault (col : CheckColumn) (s : State) : Option FaultCode :=
  if (col = .convert ∨ col = .blit) ∧ known s s.src.fmt = false then some .format
  else if known s s.dst.fmt = false then some .format
  else if col = .blit ∧ validDesc (srcBitmap s) = false then some .desc
  else if (col = .pixel ∨ col = .blit) ∧ validDesc (dstBitmap s) = false then some .desc
  else if col = .blit ∧ overlaps (srcBitmap s) (dstBitmap s) = true then some .overlap
  else none

/-- The engine can run the command: no fault is recorded and every check of its column holds. -/
def ready (i : Instr) (s : State) : Prop := s.fault = false ∧ tableFault (checkColumn i) s = none

/-! ### The register map, as offsets -/

/-- The RW registers of 10_state.md rule R22: byte offset and the bits that hold a field. -/
def rwRegisters : List (Nat × Word) :=
  [(0x10, 0xFFFFFFFF), (0x14, 0xFFFFFFFF), (0x18, 0x00000007), (0x20, 0xFFFFFFFF), (0x24, 0xFFFFFFFF),
    (0x28, 0x00000007), (0x30, 0xFFFFFFFF), (0x34, 0xFFFFFFFF), (0x38, 0xFFFFFFFF), (0x40, 0xFFFFFFFF),
    (0x44, 0xFFFFFFFF), (0x48, 0xFFFFFFFF), (0x50, 0xFFFFFFFF), (0x54, 0xFFFFFFFF), (0x100, 0x0000003F),
    (0x104, 0x00003F1F), (0x108, 0x00003F1F), (0x10C, 0x00003F1F), (0x110, 0x00003F1F)]

/-- The offsets of the RO registers STATUS, FCMD, PIXOUT and KEY (10_state.md rule R22). -/
def roOffsets : List Nat := [0x00, 0x0C, 0x58, 0x5C]

/-- The offsets of the five registers of a format slot (10_state.md rule R22). -/
def slotOffsets (id : Nat) : List Nat :=
  [0x100 + 0x20 * id, 0x104 + 0x20 * id, 0x108 + 0x20 * id, 0x10C + 0x20 * id, 0x110 + 0x20 * id]

/-- Every offset that 10_state.md rule R22 defines. -/
def definedOffsets : List Nat :=
  roOffsets ++ [0x04, 0x08] ++ rwRegisters.map Prod.fst ++ [1, 2, 3, 4, 5, 6, 7].flatMap slotOffsets

/-! ### Pixels and bytes -/

/-- The byte address a lies in the footprint of d (20_memory.md rule R65). -/
def inFootprint (d : Bitmap) (a : Nat) : Prop := d.base ≤ a ∧ a < d.base + memsize d

/-- The value `emit` leaves at a destination pixel that held `old`, for the source pixel p (41_combine.md rule R120). -/
def combined (s : State) (comb : Comb) (old p : Nat) : Nat :=
  match comb with
  | .replace => convertPixel s s.src.fmt s.dst.fmt p
  | .key => if p = keyPixel s s.src.fmt then old else convertPixel s s.src.fmt s.dst.fmt p
  | .add => addPixel (dstBitmap s).fmt old (convertPixel s s.src.fmt s.dst.fmt p)

/-- The six forms of BLIT with their COMB and HFLIP (43_blit.md rules R155 to R160). -/
def blitForms : List (Instr × Comb × Bool) :=
  [(.blit, .replace, false), (.blitKey, .key, false), (.blitAdd, .add, false), (.blitHflip, .replace, true),
    (.blitKeyHflip, .key, true), (.blitAddHflip, .add, true)]

/-- The source pixel (u, v) lies in SRC. -/
def inSource (s : State) (u v : Int) : Prop := 0 ≤ u ∧ u < (srcBitmap s).w ∧ 0 ≤ v ∧ v < (srcBitmap s).h

/-! ### Work -/

/-- The pixels a command visits (70_reset_and_hazards.md rule R230, 00_scope.md rule R13). -/
def pixelsVisited (i : Instr) (s : State) : Nat :=
  match i with
  | .convert => 0
  | .encode => 0
  | .putpixel => if pixelInBounds s then 1 else 0
  | .putpixelAdd => if pixelInBounds s then 1 else 0
  | .clear => (clearPixels s).length
  | .blit => (blitMoves s false).length
  | .blitKey => (blitMoves s false).length
  | .blitAdd => (blitMoves s false).length
  | .blitHflip => (blitMoves s true).length
  | .blitKeyHflip => (blitMoves s true).length
  | .blitAddHflip => (blitMoves s true).length
  | .sblit => (scaledMoves s (sblitRect s)).length
  | .srblit => (scaledMoves s (srblitRect s)).length

/-! ### The invariant -/

/-- What 60_exceptions.md rule R191 says a recorded fault can be: the code and a word that can raise it; with no fault
recorded, ERR and FCMD are 0 (10_state.md rules R24, R27). -/
def recordOk (s : State) : Prop :=
  match s.fault with
  | false => s.err = 0 ∧ s.fcmd = 0
  | true =>
    (s.err = 1 ∧ ∃ r, decode s.fcmd = .error r) ∨
      ∃ i, decode s.fcmd = .ok i ∧
        (s.err = 2 ∨ (s.err = 3 ∧ checkColumn i ≠ .convert ∧ checkColumn i ≠ .encode) ∨
          (s.err = 4 ∧ checkColumn i = .blit))

/-- The invariant every step keeps: pixel memory is canonical and within the address space, and the fault record is one
that a fault can leave. -/
def Invariant (s : State) : Prop := Memory.wf s.mem ∧ recordOk s

end Sys2Proof.Machine
end

