-- ==== Sys2Proof/Certificates/Slice0/Obligations.lean ====
section
/-! DEFINITION. The statements about the machine, for the provers. Each docstring names the rules of spec/ it rests on. -/

open Sys2Proof Sys2Proof.Machine

/-! ## Encoding -/

/-- 30_encoding.md rule R84: the word of each command decodes to it. -/
def Obligations.TableWordsDecode : Prop :=
  decode 0x00000001 = .ok .convert ∧ decode 0x00000002 = .ok .encode ∧ decode 0x00000003 = .ok .putpixel ∧
    decode 0x00000023 = .ok .putpixelAdd ∧ decode 0x00000004 = .ok .clear ∧ decode 0x00000005 = .ok .blit ∧
      decode 0x00000055 = .ok .blitKeyHflip ∧ decode 0x00000006 = .ok .sblit ∧ decode 0x00000007 = .ok .srblit

/-- 30_encoding.md rule R84: exactly the thirteen words of the table are legal, each the word of its row. -/
def Obligations.ExactlyTheTableWordsAreLegal : Prop :=
  ∀ (w : Word) (i : Instr),
    decode w = .ok i ↔
      (i, w) ∈ [(Instr.convert, (0x00000001 : Word)), (.encode, 0x00000002), (.putpixel, 0x00000003),
        (.putpixelAdd, 0x00000023), (.clear, 0x00000004), (.blit, 0x00000005), (.blitKey, 0x00000015),
        (.blitAdd, 0x00000025), (.blitHflip, 0x00000045), (.blitKeyHflip, 0x00000055), (.blitAddHflip, 0x00000065),
        (.sblit, 0x00000006), (.srblit, 0x00000007)]

/-- 30_encoding.md rules R80, R84, R86: decoding an encoded command gives it back, and a word that decodes is the encoding
of what it decodes to, so no bit of a word is dropped. -/
def Obligations.DecodeAndEncodeAgree : Prop :=
  (∀ i : Instr, wellFormed i = true → decode (encode i) = .ok i) ∧
    ∀ (w : Word) (i : Instr), decode w = .ok i → wellFormed i = true ∧ encode i = w

/-- 30_encoding.md rule R85: which words are reserved, by their fields, and that writing one to CMD raises E_ILLEGAL and
does nothing else. -/
def Obligations.ReservedWordsRaiseIllegal : Prop :=
  (∀ w : Word,
    (∃ r, decode w = .error r) ↔
      (w.toNat % 16 = 0 ∨ 8 ≤ w.toNat % 16) ∨ w.toNat / 16 % 4 = 3 ∨ w.toNat / 128 ≠ 0 ∨
        ((w.toNat / 16 % 4 ≠ 0 ∨ w.toNat / 64 % 2 = 1) ∧ w.toNat % 16 ∈ [1, 2, 4, 6, 7]) ∨
          ((w.toNat / 16 % 4 = 1 ∨ w.toNat / 64 % 2 = 1) ∧ w.toNat % 16 = 3)) ∧
    ∀ (s : State) (w : Word) (rest : List HostAction),
      s.host = .wr 1 w :: rest → s.fault = false → (∃ r, decode w = .error r) →
        step s = .next { s with host := rest, fault := true, err := 1, fcmd := w }

/-! ## The step and the port -/

/-- 30_encoding.md rule R81: a CMD write of a word that decodes to a well-formed command runs exec of it, after the host's
action is taken from the list; the CMD register is at word index 1 (offset 0x04). -/
def Obligations.StepRunsTheDecodedCommand : Prop :=
  (∀ (s : State) (w : Word) (i : Instr) (rest : List HostAction),
    s.host = .wr 1 w :: rest → s.fault = false → decode w = .ok i → wellFormed i = true →
      step s = exec i { s with host := rest }) ∧
    ∀ (s : State) (w : Nat) (i : Instr),
      w < 2 ^ 32 → s.fault = false → decode (BitVec.ofNat 32 w) = .ok i → step (s.withFetchWord 32 w) = exec i s

/-- 60_exceptions.md rule R196: while STATUS.FAULT = 1 a CMD write has no effect, whatever the word. -/
def Obligations.FaultedEngineIgnoresCommands : Prop :=
  ∀ (s : State) (w : Word) (rest : List HostAction),
    s.host = .wr 1 w :: rest → s.fault = true → step s = .next { s with host := rest }

/-- 10_state.md rules R22, R23: a write to an RW register replaces every field by the bits of the word, whatever the value,
and changes nothing else: no other offset reads otherwise, and no byte of memory changes; while faulted too
(60_exceptions.md rule R197). -/
def Obligations.RegisterWritesReadBackMasked : Prop :=
  ∀ (s : State) (v : Word) (idx o : Nat) (mask : Word) (rest : List HostAction),
    (o, mask) ∈ rwRegisters → o = 4 * idx → s.host = .wr idx v :: rest →
      ∃ t, step s = .next t ∧ portRead o t = v &&& mask ∧ (∀ o', o' ≠ o → portRead o' t = portRead o' s) ∧
        t.mem = s.mem ∧ t.cfg = s.cfg ∧ t.host = rest ∧ t.answers = s.answers

/-- 10_state.md rule R23: a write to an RO register or to an undefined offset has no effect, and an undefined offset
reads 0. -/
def Obligations.ReadOnlyAndUndefinedOffsets : Prop :=
  (∀ (s : State) (v : Word) (idx : Nat) (rest : List HostAction),
    4 * idx ≠ 0x04 → 4 * idx ≠ 0x08 → 4 * idx ∉ rwRegisters.map Prod.fst → s.host = .wr idx v :: rest →
      step s = .next { s with host := rest }) ∧
    ∀ (s : State) (o : Nat), o ∉ definedOffsets → portRead o s = 0

/-- 10_state.md rules R23, R25 to R27, R41, R42: a read has no side effect on any register, and what FCMD, PIXOUT, KEY, CMD
and RESET read as. The list of answers is the model's own (log 4). -/
def Obligations.RegisterReadsHaveNoSideEffect : Prop :=
  (∀ (s : State) (idx : Nat) (rest : List HostAction),
    s.host = .rd idx :: rest →
      step s = .next { s with host := rest, answers := s.answers ++ [portRead (4 * idx) s] }) ∧
    ∀ s : State, portRead 0x04 s = 0 ∧ portRead 0x08 s = 0 ∧ portRead 0x0C s = s.fcmd ∧
      portRead 0x58 s = s.pixout ∧ portRead 0x5C s = s.cfg.colorkey

/-- 10_state.md rule R24: FAULT is bit 0 of STATUS, ERR is bits 7:4, and all other bits read 0; 60_exceptions.md rule R201:
`fault_o` is FAULT. -/
def Obligations.StatusBits : Prop :=
  ∀ s : State,
    (portRead 0x00 s).getLsbD 0 = s.fault ∧ faultOut s = (portRead 0x00 s).getLsbD 0 ∧
      (∀ k < 4, (portRead 0x00 s).getLsbD (4 + k) = s.err.getLsbD k) ∧
        ∀ k, (1 ≤ k ∧ k ≤ 3) ∨ 8 ≤ k → (portRead 0x00 s).getLsbD k = false

/-- 10_state.md rules R28, R29, R36 to R38: the operands of the commands are the fields of the registers the host reads;
20_memory.md rules R63, R65, R66: where the pixel at column x, row y of either bitmap stands, and that reading it gives the
sum of its bpp / 8 bytes, each times its power of 256. -/
def Obligations.OperandsAreRegisterFields : Prop :=
  ∀ s : State,
    (srcBitmap s).base = (portRead 0x10 s).toNat ∧ (srcBitmap s).w = (portRead 0x14 s).toNat % 2 ^ 16 ∧
      (srcBitmap s).h = (portRead 0x14 s).toNat / 2 ^ 16 ∧ s.src.fmt.toNat = (portRead 0x18 s).toNat ∧
    (dstBitmap s).base = (portRead 0x20 s).toNat ∧ (dstBitmap s).w = (portRead 0x24 s).toNat % 2 ^ 16 ∧
      (dstBitmap s).h = (portRead 0x24 s).toNat / 2 ^ 16 ∧ s.dst.fmt.toNat = (portRead 0x28 s).toNat ∧
    dstPosX s = (portRead 0x30 s).toInt ∧ dstPosY s = (portRead 0x34 s).toInt ∧
      s.dstRsize.w.toNat = (portRead 0x38 s).toNat % 2 ^ 16 ∧ s.dstRsize.h.toNat = (portRead 0x38 s).toNat / 2 ^ 16 ∧
    srcPosX s = (portRead 0x40 s).toInt ∧ srcPosY s = (portRead 0x44 s).toInt ∧
      s.srcRsize.w.toNat = (portRead 0x48 s).toNat % 2 ^ 16 ∧ s.srcRsize.h.toNat = (portRead 0x48 s).toNat / 2 ^ 16 ∧
    (∀ x y, x < s.src.w.toNat → y < s.src.h.toNat →
      pixAddr (srcBitmap s) x y =
          s.src.base.toNat + (y * s.src.w.toNat + x) * (bpp (fmtSlot s s.src.fmt) / 8) ∧
        ∀ m : Memory, pixRead m (srcBitmap s) x y =
          ∑ k ∈ Finset.range (bpp (fmtSlot s s.src.fmt) / 8),
            (Memory.read m (s.src.base.toNat + (y * s.src.w.toNat + x) * (bpp (fmtSlot s s.src.fmt) / 8) + k)).toNat *
              2 ^ (8 * k)) ∧
    ∀ x y, x < s.dst.w.toNat → y < s.dst.h.toNat →
      pixAddr (dstBitmap s) x y =
          s.dst.base.toNat + (y * s.dst.w.toNat + x) * (bpp (fmtSlot s s.dst.fmt) / 8) ∧
        ∀ m : Memory, pixRead m (dstBitmap s) x y =
          ∑ k ∈ Finset.range (bpp (fmtSlot s s.dst.fmt) / 8),
            (Memory.read m (s.dst.base.toNat + (y * s.dst.w.toNat + x) * (bpp (fmtSlot s s.dst.fmt) / 8) + k)).toNat *
              2 ^ (8 * k)

/-- 10_state.md rules R22, R30, R33 to R35: `FMT[id]` is what the five registers of slot id read as, slot 7 reads 0, and
slots 1 to 6 read the parameter `BUILTIN_FMT`. -/
def Obligations.FormatTableIsItsRegisters : Prop :=
  ∀ (s : State) (id : BitVec 3),
    bpp (fmtSlot s id) = (portRead (0x100 + 0x20 * id.toNat) s).toNat ∧
      (∀ ck ∈ [(Chan.R, 0x104), (.G, 0x108), (.B, 0x10C), (.A, 0x110)],
        off (fmtSlot s id) ck.1 = (portRead (ck.2 + 0x20 * id.toNat) s).toNat % 2 ^ 5 ∧
          wid (fmtSlot s id) ck.1 = (portRead (ck.2 + 0x20 * id.toNat) s).toNat / 2 ^ 8) ∧
      (∀ o ∈ slotOffsets 7, portRead o s = 0) ∧
      [fmtSlot s 1, fmtSlot s 2, fmtSlot s 3, fmtSlot s 4, fmtSlot s 5, fmtSlot s 6] =
        [s.cfg.rgb565, s.cfg.rgb24, s.cfg.bgr24, s.cfg.rgba32, s.cfg.argb32, s.cfg.abgr32]

/-- 10_state.md rules R32, R33, R35 and 00_scope.md rule R6: id 7 is never known, id 0 is unknown while its registers are 0,
and ids 1 to 6 are known under every choice of the parameter that meets its constraints. -/
def Obligations.KnownFormatIds : Prop :=
  ∀ s : State,
    known s 7 = false ∧ (s.native = zeroFmt → known s 0 = false) ∧
      (configLegal s.cfg = true → ∀ id : BitVec 3, id ≠ 0 → id ≠ 7 → known s id = true)

/-! ## Faults and reset -/

/-- 60_exceptions.md rules R192, R193: a CMD write is ignored while faulted (step 0), raises E_ILLEGAL for a word that is not
legal (step 1), and else the first check of the command's column that fails decides the fault (steps 2 to 6); raising one
writes FAULT, ERR and FCMD and nothing else; when every check holds the command completes and records no fault. -/
def Obligations.FirstFailingCheckDecidesTheFault : Prop :=
  ∀ (s : State) (w : Word) (rest : List HostAction), s.host = .wr 1 w :: rest →
    (s.fault = true → step s = .next { s with host := rest }) ∧
    (s.fault = false → (∃ r, decode w = .error r) →
      step s = .next { s with host := rest, fault := true, err := FaultCode.illegal.code, fcmd := w }) ∧
    ∀ i : Instr, s.fault = false → decode w = .ok i →
      (∀ k, tableFault (checkColumn i) s = some k →
        step s = .next { s with host := rest, fault := true, err := k.code, fcmd := w }) ∧
      (tableFault (checkColumn i) s = none →
        ∃ t, step s = .next t ∧ t.fault = false ∧ t.err = s.err ∧ t.fcmd = s.fcmd)

/-- 60_exceptions.md rule R194: a command that faults changes no byte of memory and no register but STATUS and FCMD. -/
def Obligations.FaultsArePrecise : Prop :=
  ∀ (i : Instr) (s t : State), s.fault = false → exec i s = .next t → t.fault = true →
    t = { s with fault := true, err := t.err, fcmd := encode i } ∧ (t.err = 2 ∨ t.err = 3 ∨ t.err = 4)

/-- 60_exceptions.md rule R195: no command and no register write clears FAULT, ERR or FCMD; only a reset does. -/
def Obligations.OnlyAResetClearsTheFaultRecord : Prop :=
  ∀ (s t : State) (a : HostAction) (rest : List HostAction),
    s.host = a :: rest → s.fault = true → a ≠ .resetInput → (∀ v : Word, a = .wr 2 v → v.getLsbD 0 = false) →
      step s = .next t → t.fault = true ∧ t.err = s.err ∧ t.fcmd = s.fcmd

/-- 70_reset_and_hazards.md rules R220, R221, 10_state.md rules R26, R47: the reset input and a write of 1 to RESET bit 0 do
the same: every register reads 0 but KEY and the slots 1 to 6, which are unaffected, as is memory, and the engine is idle; a 0
in bit 0 does nothing. -/
def Obligations.ResetClearsEveryRegister : Prop :=
  (∀ (s : State) (v : Word) (rest : List HostAction),
    s.host = .resetInput :: rest ∨ (s.host = .wr 2 v :: rest ∧ v.getLsbD 0 = true) →
      ∃ t, step s = .next t ∧ t.fault = false ∧ t.mem = s.mem ∧ t.cfg = s.cfg ∧
        (∀ o, o ≠ 0x5C → ¬(0x120 ≤ o ∧ o < 0x1E0) → portRead o t = 0) ∧
        (∀ o, o = 0x5C ∨ (0x120 ≤ o ∧ o < 0x1E0) → portRead o t = portRead o s) ∧
        (rest = [] → step t = .next t)) ∧
    ∀ (s : State) (v : Word) (rest : List HostAction),
      s.host = .wr 2 v :: rest → v.getLsbD 0 = false → step s = .next { s with host := rest }

/-- 70_reset_and_hazards.md rule R223: after reset, with any contents of memory (rule R222) and any parameters, every legal
command raises E_FORMAT. -/
def Obligations.AfterResetEveryCommandRaisesFormat : Prop :=
  ∀ (i : Instr) (m : Memory) (c : Config),
    exec i { State.reset with mem := m, cfg := c } =
      .next { State.reset with mem := m, cfg := c, fault := true, err := 2, fcmd := encode i }

/-- 10_state.md rules R31, R32: ENCODE raises E_FORMAT exactly when the descriptor in its slot breaks a condition of
validity. -/
def Obligations.FormatValidityDecidesFormatFault : Prop :=
  ∀ s : State, s.fault = false →
    ((∃ t, exec .encode s = .next t ∧ t.fault = true ∧ t.err = 2) ↔
      ¬((bpp (fmtSlot s s.dst.fmt) = 8 ∨ bpp (fmtSlot s s.dst.fmt) = 16 ∨ bpp (fmtSlot s s.dst.fmt) = 24 ∨
          bpp (fmtSlot s s.dst.fmt) = 32) ∧
        (∀ c, 0 < wid (fmtSlot s s.dst.fmt) c →
          off (fmtSlot s s.dst.fmt) c + wid (fmtSlot s s.dst.fmt) c ≤ bpp (fmtSlot s s.dst.fmt)) ∧
        ∀ c d b, c ≠ d →
          ¬((off (fmtSlot s s.dst.fmt) c ≤ b ∧ b < off (fmtSlot s s.dst.fmt) c + wid (fmtSlot s s.dst.fmt) c) ∧
            (off (fmtSlot s s.dst.fmt) d ≤ b ∧ b < off (fmtSlot s s.dst.fmt) d + wid (fmtSlot s s.dst.fmt) d))))

/-- 10_state.md rule R45: with a known format, CLEAR raises E_DESC exactly when the width or the height is 0 or the
footprint passes 2^32. -/
def Obligations.DescriptorValidityDecidesDescFault : Prop :=
  ∀ s : State, s.fault = false → known s s.dst.fmt = true →
    ((∃ t, exec .clear s = .next t ∧ t.fault = true ∧ t.err = 3) ↔
      s.dst.w = 0 ∨ s.dst.h = 0 ∨
        2 ^ 32 < s.dst.base.toNat + s.dst.w.toNat * s.dst.h.toNat * (bpp (fmtSlot s s.dst.fmt) / 8))

/-- 43_blit.md rules R150, R151: with known formats and valid descriptors, a blit of any form raises E_OVERLAP exactly when
some byte lies in both footprints. -/
def Obligations.SharedByteDecidesOverlapFault : Prop :=
  ∀ (i : Instr) (s : State), checkColumn i = .blit → s.fault = false → known s s.src.fmt = true →
    known s s.dst.fmt = true → validDesc (srcBitmap s) = true → validDesc (dstBitmap s) = true →
      ((∃ t, exec i s = .next t ∧ t.fault = true ∧ t.err = 4) ↔
        ∃ a, inFootprint (srcBitmap s) a ∧ inFootprint (dstBitmap s) a)

/-! ## Frames -/

/-- 10_state.md rule R49: a command writes no RW register; it can change PIXOUT (CONVERT and ENCODE alone), on a fault
STATUS and FCMD, and pixel memory (not CONVERT and not ENCODE, 20_memory.md rule R60). -/
def Obligations.CommandsChangeOnlyTheirResults : Prop :=
  ∀ (i : Instr) (s t : State), exec i s = .next t →
    (t.src = s.src ∧ t.dst = s.dst ∧ t.dstX = s.dstX ∧ t.dstY = s.dstY ∧ t.dstRsize = s.dstRsize ∧ t.srcX = s.srcX ∧
      t.srcY = s.srcY ∧ t.srcRsize = s.srcRsize ∧ t.color = s.color ∧ t.pixin = s.pixin ∧ t.native = s.native ∧
        t.cfg = s.cfg ∧ t.host = s.host ∧ t.answers = s.answers) ∧
      (i ≠ .convert → i ≠ .encode → t.pixout = s.pixout) ∧
        (i = .convert ∨ i = .encode → t.mem = s.mem) ∧
          (t.fault = s.fault → t.err = s.err ∧ t.fcmd = s.fcmd)

/-- 20_memory.md rule R69, for every command: no byte outside the DST footprint changes, and none at all when the command
faults. -/
def Obligations.CommandsWriteOnlyTheDstFootprint : Prop :=
  ∀ (i : Instr) (s t : State), exec i s = .next t →
    (∀ a, ¬inFootprint (dstBitmap s) a → Memory.read t.mem a = Memory.read s.mem a) ∧
      (t.fault = true → t.mem = s.mem)

/-- 20_memory.md rule R69, what a command may read: two memories that agree on the DST footprint, and for a blit on the SRC
footprint, give the same registers and the same DST footprint after it. -/
def Obligations.CommandsReadOnlyTheirFootprints : Prop :=
  ∀ (i : Instr) (s : State) (m : Memory),
    (∀ a, inFootprint (dstBitmap s) a ∨ (checkColumn i = .blit ∧ inFootprint (srcBitmap s) a) →
      Memory.read m a = Memory.read s.mem a) →
      ∃ t t', exec i s = .next t ∧ exec i { s with mem := m } = .next t' ∧ { t' with mem := t.mem } = t ∧
        ∀ a, inFootprint (dstBitmap s) a → Memory.read t'.mem a = Memory.read t.mem a

/-! ## The converter -/

/-- 40_convert.md rule R110: CONVERT, with both faults and the result; no bit of the result is lost in PIXOUT. -/
def Obligations.ConvertWritesTheConvertedPixel : Prop :=
  ∀ s : State, s.fault = false →
    (known s s.src.fmt = false ∨ known s s.dst.fmt = false →
      exec .convert s = .next { s with fault := true, err := 2, fcmd := 0x00000001 }) ∧
      (known s s.src.fmt = true → known s s.dst.fmt = true →
        ∃ t, exec .convert s = .next t ∧ t = { s with pixout := t.pixout } ∧
          t.pixout.toNat =
            if s.src.fmt = s.dst.fmt then s.pixin.toNat
            else convertChannels (fmtSlot s s.src.fmt) (fmtSlot s s.dst.fmt) s.pixin.toNat)

/-- 40_convert.md rule R111: ENCODE, with its fault and the result; no bit of the result is lost in PIXOUT. -/
def Obligations.EncodeWritesTheEncodedColour : Prop :=
  ∀ s : State, s.fault = false →
    (known s s.dst.fmt = false → exec .encode s = .next { s with fault := true, err := 2, fcmd := 0x00000002 }) ∧
      (known s s.dst.fmt = true →
        ∃ t, exec .encode s = .next t ∧ t = { s with pixout := t.pixout } ∧
          t.pixout.toNat = encodePixel (fmtSlot s s.dst.fmt) s.color.toNat)

/-- 10_state.md rule R34 and the example of 40_convert.md rule R111: under every choice of the parameters that meets the
constraints of 00_scope.md rule R6, canonical red encodes to 0xF800 in slot 1. -/
def Obligations.RedEncodesToF800InSlotOne : Prop :=
  ∀ s : State, configLegal s.cfg = true → s.fault = false → s.dst.fmt = 1 → s.color = 0x000000FF →
    exec .encode s = .next { s with pixout := 0x0000F800 }

/-- 40_convert.md rule R101: rescale truncates or fills with zeros, and the properties the rule lists. -/
def Obligations.RescaleTruncatesOrZeroFills : Prop :=
  (∀ v ws wd, wd < ws → rescale v ws wd = v / 2 ^ (ws - wd)) ∧
    (∀ v ws wd, ws < wd → rescale v ws wd = v * 2 ^ (wd - ws)) ∧ (∀ v w, rescale v w w = v) ∧
      (∀ v ws wd, v < 2 ^ ws → rescale v ws wd < 2 ^ wd) ∧ (∀ v wd, v < 2 ^ 0 → rescale v 0 wd = 0) ∧
        (∀ v ws, v < 2 ^ ws → rescale v ws 0 = 0) ∧ rescale 31 5 8 = 248

/-- 40_convert.md rule R104: in a valid format, encode is the OR, and also the sum, of the four rescaled channels at their
offsets. -/
def Obligations.EncodeIsTheSumOfItsChannels : Prop :=
  ∀ (f : PixFmt) (c : Nat), validFmt f = true →
    encodePixel f c =
        (rescale (c % 2 ^ 8) 8 (wid f .R) <<< off f .R ||| rescale (c / 2 ^ 8 % 2 ^ 8) 8 (wid f .G) <<< off f .G |||
          rescale (c / 2 ^ 16 % 2 ^ 8) 8 (wid f .B) <<< off f .B |||
          rescale (c / 2 ^ 24 % 2 ^ 8) 8 (wid f .A) <<< off f .A) ∧
      encodePixel f c =
        rescale (c % 2 ^ 8) 8 (wid f .R) * 2 ^ off f .R + rescale (c / 2 ^ 8 % 2 ^ 8) 8 (wid f .G) * 2 ^ off f .G +
          rescale (c / 2 ^ 16 % 2 ^ 8) 8 (wid f .B) * 2 ^ off f .B +
          rescale (c / 2 ^ 24 % 2 ^ 8) 8 (wid f .A) * 2 ^ off f .A

/-- 40_convert.md rules R105, R107, R108: between different formats every channel is rescaled directly, uncovered bits of
the result are 0, uncovered bits of the source are ignored, and the result is below 2^bpp; between equal ids a pixel is
unchanged. -/
def Obligations.ConvertRescalesEachChannel : Prop :=
  (∀ (fs fd : PixFmt) (p : Nat), validFmt fs = true → validFmt fd = true →
    (∀ k, (convertChannels fs fd p / 2 ^ off fd k) % 2 ^ wid fd k =
      rescale ((p / 2 ^ off fs k) % 2 ^ wid fs k) (wid fs k) (wid fd k)) ∧
    (∀ b, (∀ k, ¬(off fd k ≤ b ∧ b < off fd k + wid fd k)) → (convertChannels fs fd p).testBit b = false) ∧
    (∀ p', (∀ k b, off fs k ≤ b → b < off fs k + wid fs k → p'.testBit b = p.testBit b) →
      convertChannels fs fd p' = convertChannels fs fd p) ∧
    convertChannels fs fd p < 2 ^ bpp fd) ∧
    (∀ (s : State) (id : BitVec 3) (p : Nat), convertPixel s id id p = p) ∧
    ∀ (s : State) (ids idd : BitVec 3) (p : Nat), ids ≠ idd →
      convertPixel s ids idd p = convertChannels (fmtSlot s ids) (fmtSlot s idd) p

/-- 40_convert.md rule R113: the five laws of the converter, for valid formats. -/
def Obligations.ConverterLaws : Prop :=
  (∀ (s : State) (id : BitVec 3) (c : Nat),
    convertPixel s id id (encodePixel (fmtSlot s id) c) = encodePixel (fmtSlot s id) c) ∧
  (∀ (s : State) (a b : BitVec 3) (c : Nat), a ≠ b → known s a = true → known s b = true →
    (∀ k, wid (fmtSlot s a) k ≤ wid (fmtSlot s b) k) →
      convertPixel s b a (convertPixel s a b (encodePixel (fmtSlot s a) c)) = encodePixel (fmtSlot s a) c) ∧
  (∀ v wa wb, wa ≤ wb → rescale (rescale v wa wb) wb wa = v) ∧
  (∀ (f : PixFmt) (c : Nat), validFmt f = true →
    encodePixel f c =
      convertChannels { bpp := 32, r := chan 0 8, g := chan 8 8, b := chan 16 8, a := chan 24 8 } f c) ∧
  (∀ (fs fd : PixFmt) (p : Nat) (k : Chan), validFmt fs = true → validFmt fd = true → wid fs k = 0 →
    chanGet fd k (convertChannels fs fd p) = 0) ∧
  ∀ (f : PixFmt) (p : Nat), validFmt f = true →
    convertChannels f f p = p &&& (chanMask f .R ||| chanMask f .G ||| chanMask f .B ||| chanMask f .A)

/-! ## The combine unit -/

/-- 41_combine.md rules R125, R126: the fields of an additive blend, narrow and wide, that black is neutral on narrow
channels, that R, G and B commute, that every bit outside R, G and B is the destination's, and the range. -/
def Obligations.AdditiveBlendLaws : Prop :=
  ∀ (f : PixFmt) (d p : Nat), validFmt f = true →
    (∀ c, c ≠ .A → wid f c ≤ 8 →
      chanGet f c (addPixel f d p) = min (2 ^ wid f c - 1) (chanGet f c d + chanGet f c p)) ∧
    (∀ c, c ≠ .A → 8 < wid f c →
      chanGet f c (addPixel f d p) =
        min 255 (chanGet f c d / 2 ^ (wid f c - 8) + chanGet f c p / 2 ^ (wid f c - 8)) * 2 ^ (wid f c - 8)) ∧
    (∀ c, wid f c ≤ 8 → chanGet f c (addPixel f d 0) = chanGet f c d) ∧
    (∀ c, c ≠ .A → chanGet f c (addPixel f d p) = chanGet f c (addPixel f p d)) ∧
    (∀ b, (∀ c, c ≠ .A → ¬(off f c ≤ b ∧ b < off f c + wid f c)) → (addPixel f d p).testBit b = d.testBit b) ∧
    (d < 2 ^ bpp f → addPixel f d p < 2 ^ bpp f)

/-! ## Single pixels and fill -/

/-- 42_pixel_ops.md rule R140, with the address of 20_memory.md rule R65 and the byte order of rule R64 written out: PUTPIXEL
within the bounds stores the bpp / 8 bytes of the encoded colour at its pixel and nothing else; outside them it does nothing
and is no fault; the checks are made either way. -/
def Obligations.PutPixelWritesTheColour : Prop :=
  (∀ (s : State) (x y n addr : Nat), ready .putpixel s → dstPosX s = x → dstPosY s = y → x < s.dst.w.toNat →
    y < s.dst.h.toNat → n = bpp (fmtSlot s s.dst.fmt) / 8 → addr = s.dst.base.toNat + (y * s.dst.w.toNat + x) * n →
      ∃ t, exec .putpixel s = .next t ∧ t = { s with mem := t.mem } ∧
        encodePixel (fmtSlot s s.dst.fmt) s.color.toNat < 2 ^ (8 * n) ∧
        (∀ k < n, (Memory.read t.mem (addr + k)).toNat =
          encodePixel (fmtSlot s s.dst.fmt) s.color.toNat / 2 ^ (8 * k) % 2 ^ 8) ∧
        ∀ a, (a < addr ∨ addr + n ≤ a) → Memory.read t.mem a = Memory.read s.mem a) ∧
  (∀ s : State, ready .putpixel s →
    (dstPosX s < 0 ∨ s.dst.w.toNat ≤ dstPosX s ∨ dstPosY s < 0 ∨ s.dst.h.toNat ≤ dstPosY s) →
      exec .putpixel s = .next s) ∧
  ∀ (s : State) (k : FaultCode), s.fault = false → tableFault .pixel s = some k →
    exec .putpixel s = .next { s with fault := true, err := k.code, fcmd := 0x00000003 }

/-- 42_pixel_ops.md rule R141, with the address of 20_memory.md rule R65 and the byte order of rules R63 and R64 written out:
PUTPIXEL.ADD within the bounds blends the encoded colour onto the pixel d its bytes hold and changes nothing else; outside
them it does nothing and is no fault; the checks are made either way. -/
def Obligations.PutPixelAddBlendsTheColour : Prop :=
  (∀ (s : State) (x y n addr d : Nat), ready .putpixelAdd s → dstPosX s = x → dstPosY s = y → x < s.dst.w.toNat →
    y < s.dst.h.toNat → n = bpp (fmtSlot s s.dst.fmt) / 8 → addr = s.dst.base.toNat + (y * s.dst.w.toNat + x) * n →
    d = ∑ k ∈ Finset.range n, (Memory.read s.mem (addr + k)).toNat * 2 ^ (8 * k) →
      ∃ t, exec .putpixelAdd s = .next t ∧ t = { s with mem := t.mem } ∧
        addPixel (fmtSlot s s.dst.fmt) d (encodePixel (fmtSlot s s.dst.fmt) s.color.toNat) < 2 ^ (8 * n) ∧
        (∀ k < n, (Memory.read t.mem (addr + k)).toNat =
          addPixel (fmtSlot s s.dst.fmt) d (encodePixel (fmtSlot s s.dst.fmt) s.color.toNat) / 2 ^ (8 * k) % 2 ^ 8) ∧
        ∀ a, (a < addr ∨ addr + n ≤ a) → Memory.read t.mem a = Memory.read s.mem a) ∧
  (∀ s : State, ready .putpixelAdd s →
    (dstPosX s < 0 ∨ s.dst.w.toNat ≤ dstPosX s ∨ dstPosY s < 0 ∨ s.dst.h.toNat ≤ dstPosY s) →
      exec .putpixelAdd s = .next s) ∧
  ∀ (s : State) (k : FaultCode), s.fault = false → tableFault .pixel s = some k →
    exec .putpixelAdd s = .next { s with fault := true, err := k.code, fcmd := 0x00000023 }

/-- 42_pixel_ops.md rule R142: CLEAR gives every pixel of DST the encoded colour and changes no byte outside the footprint,
whatever DST_X and DST_Y; a check that fails raises its fault. -/
def Obligations.ClearFillsTheBitmap : Prop :=
  (∀ s : State, ready .clear s →
    ∃ t, exec .clear s = .next t ∧ t = { s with mem := t.mem } ∧
      (∀ x y, x < s.dst.w.toNat → y < s.dst.h.toNat →
        pixRead t.mem (dstBitmap s) x y = encodePixel (fmtSlot s s.dst.fmt) s.color.toNat) ∧
      ∀ a, ¬inFootprint (dstBitmap s) a → Memory.read t.mem a = Memory.read s.mem a) ∧
  ∀ (s : State) (k : FaultCode), s.fault = false → tableFault .pixel s = some k →
    exec .clear s = .next { s with fault := true, err := k.code, fcmd := 0x00000004 }

/-! ## Blits -/

/-- 43_blit.md rules R152, R154, R155 to R161, 41_combine.md rules R120 to R124: each of the six forms completes; at a
destination pixel (x, y) it combines the source pixel that the (mirrored) image placed at (X, Y) has there, and where the
image has none the pixel is unchanged; no byte outside the footprint changes; a check that fails raises its fault. -/
def Obligations.BlitCombinesThePlacedImage : Prop :=
  ∀ (i : Instr) (comb : Comb) (hflip : Bool) (s : State), (i, comb, hflip) ∈ blitForms →
    (ready i s →
      ∃ t, exec i s = .next t ∧ t = { s with mem := t.mem } ∧
        (∀ x y u v : Nat, x < s.dst.w.toNat → y < s.dst.h.toNat → inSource s (x - dstPosX s) (y - dstPosY s) →
          (u : Int) = (if hflip then (s.src.w.toNat : Int) - 1 - (x - dstPosX s) else x - dstPosX s) →
            (v : Int) = y - dstPosY s →
              pixRead t.mem (dstBitmap s) x y =
                combined s comb (pixRead s.mem (dstBitmap s) x y) (pixRead s.mem (srcBitmap s) u v)) ∧
        (∀ x y : Nat, x < s.dst.w.toNat → y < s.dst.h.toNat → ¬inSource s (x - dstPosX s) (y - dstPosY s) →
          pixRead t.mem (dstBitmap s) x y = pixRead s.mem (dstBitmap s) x y) ∧
        ∀ a, ¬inFootprint (dstBitmap s) a → Memory.read t.mem a = Memory.read s.mem a) ∧
    ∀ k, s.fault = false → tableFault .blit s = some k →
      exec i s = .next { s with fault := true, err := k.code, fcmd := encode i }

/-- 43_blit.md rule R153: the bounds the clip window keeps, and the offsets at which it is empty. -/
def Obligations.ClipWindowStaysInBothBitmaps : Prop :=
  (∀ (s : State) (i j : Nat), (i : Int) < (clipX s).count → (j : Int) < (clipY s).count →
    (0 ≤ (clipX s).src0 + i ∧ (clipX s).src0 + i ≤ (srcBitmap s).w - 1) ∧
      (0 ≤ (clipY s).src0 + j ∧ (clipY s).src0 + j ≤ (srcBitmap s).h - 1) ∧
      (0 ≤ (clipX s).dst0 + i ∧ (clipX s).dst0 + i ≤ (dstBitmap s).w - 1) ∧
      (0 ≤ (clipY s).dst0 + j ∧ (clipY s).dst0 + j ≤ (dstBitmap s).h - 1) ∧
      (0 ≤ ((srcBitmap s).w : Int) - 1 - ((clipX s).src0 + i) ∧
        ((srcBitmap s).w : Int) - 1 - ((clipX s).src0 + i) ≤ (srcBitmap s).w - 1)) ∧
  ∀ s : State,
    ((dstBitmap s).w ≤ dstPosX s ∨ dstPosX s ≤ -((srcBitmap s).w : Int) → (clipX s).count ≤ 0) ∧
      ((dstBitmap s).h ≤ dstPosY s ∨ dstPosY s ≤ -((srcBitmap s).h : Int) → (clipY s).count ≤ 0)

/-- 43_blit.md rules R152, R153: a blit of any form whose window is empty completes, touches nothing and is no fault. -/
def Obligations.EmptyWindowBlitsNothing : Prop :=
  ∀ (i : Instr) (comb : Comb) (hflip : Bool) (s : State), (i, comb, hflip) ∈ blitForms → ready i s →
    (s.dst.w.toNat ≤ dstPosX s ∨ dstPosX s ≤ -(s.src.w.toNat : Int) ∨ s.dst.h.toNat ≤ dstPosY s ∨
      dstPosY s ≤ -(s.src.h.toNat : Int)) →
        exec i s = .next s

/-- 41_combine.md rule R128: with equal ids, a KEY blit never writes the key: a pixel that holds the key afterwards held it
before. -/
def Obligations.KeyBlitNeverWritesTheKey : Prop :=
  ∀ (i : Instr) (s t : State) (x y : Nat), i = .blitKey ∨ i = .blitKeyHflip → s.src.fmt = s.dst.fmt →
    exec i s = .next t → x < s.dst.w.toNat → y < s.dst.h.toNat →
      pixRead t.mem (dstBitmap s) x y = encodePixel (fmtSlot s s.src.fmt) s.cfg.colorkey.toNat →
        pixRead s.mem (dstBitmap s) x y = encodePixel (fmtSlot s s.src.fmt) s.cfg.colorkey.toNat

/-- 43_blit.md rule R162, items 1 and 2: with equal formats, BLIT at (0, 0) onto a destination at least as large copies
every source pixel unchanged into the top-left corner and touches no other pixel; at (−3, 0) it drops the first three
source columns. -/
def Obligations.BlitCopiesTheSource : Prop :=
  (∀ s : State, ready .blit s → s.src.fmt = s.dst.fmt → dstPosX s = 0 → dstPosY s = 0 →
    s.src.w.toNat ≤ s.dst.w.toNat → s.src.h.toNat ≤ s.dst.h.toNat →
      ∃ t, exec .blit s = .next t ∧
        (∀ x y, x < s.src.w.toNat → y < s.src.h.toNat →
          pixRead t.mem (dstBitmap s) x y = pixRead s.mem (srcBitmap s) x y) ∧
        ∀ x y, x < s.dst.w.toNat → y < s.dst.h.toNat → s.src.w.toNat ≤ x ∨ s.src.h.toNat ≤ y →
          pixRead t.mem (dstBitmap s) x y = pixRead s.mem (dstBitmap s) x y) ∧
    ∀ s : State, ready .blit s → s.src.fmt = s.dst.fmt → dstPosX s = -3 → dstPosY s = 0 →
      ∃ t, exec .blit s = .next t ∧
        ∀ x y, x < s.dst.w.toNat → y < s.dst.h.toNat → x + 3 < s.src.w.toNat → y < s.src.h.toNat →
          pixRead t.mem (dstBitmap s) x y = pixRead s.mem (srcBitmap s) (x + 3) y

/-! ## The scaler -/

/-- 44_scaler.md rule R177: the six properties of the nearest-neighbour index. -/
def Obligations.NearestIndexProperties : Prop :=
  (∀ i sn dn, i < dn → 1 ≤ sn → nearest i sn dn ≤ sn - 1) ∧ (∀ sn dn, 0 < dn → nearest 0 sn dn = 0) ∧
    (∀ i i' sn dn, 0 < dn → i ≤ i' → nearest i sn dn ≤ nearest i' sn dn) ∧ (∀ i n, 0 < n → nearest i n n = i) ∧
      (∀ i k sn, 0 < k → 0 < sn → nearest i sn (k * sn) = i / k) ∧
        ∀ i k dn, 0 < k → 0 < dn → nearest i (k * dn) dn = k * i

/-- 44_scaler.md rules R172, R174, R176: SRBLIT completes; a destination pixel of the rectangle whose sample lies in SRC
takes the converted sample; every other pixel, and every byte outside the footprint, is unchanged; a check that fails raises
its fault. -/
def Obligations.SrblitCopiesTheNearestSample : Prop :=
  (∀ s : State, ready .srblit s →
    ∃ t, exec .srblit s = .next t ∧ t = { s with mem := t.mem } ∧
      (∀ x y i j u v : Nat, x < s.dst.w.toNat → y < s.dst.h.toNat → (x : Int) = dstPosX s + i →
        (y : Int) = dstPosY s + j → i < s.dstRsize.w.toNat → j < s.dstRsize.h.toNat →
          (u : Int) = srcPosX s + (i * s.srcRsize.w.toNat / s.dstRsize.w.toNat : Nat) →
            (v : Int) = srcPosY s + (j * s.srcRsize.h.toNat / s.dstRsize.h.toNat : Nat) → u < s.src.w.toNat →
              v < s.src.h.toNat → 0 < s.srcRsize.w.toNat → 0 < s.srcRsize.h.toNat →
                pixRead t.mem (dstBitmap s) x y =
                  convertPixel s s.src.fmt s.dst.fmt (pixRead s.mem (srcBitmap s) u v)) ∧
      (∀ x y : Nat, x < s.dst.w.toNat → y < s.dst.h.toNat →
        (¬∃ i j : Nat, (x : Int) = dstPosX s + i ∧ (y : Int) = dstPosY s + j ∧ i < s.dstRsize.w.toNat ∧
          j < s.dstRsize.h.toNat ∧ 0 < s.srcRsize.w.toNat ∧ 0 < s.srcRsize.h.toNat ∧
          inSource s (srcPosX s + (i * s.srcRsize.w.toNat / s.dstRsize.w.toNat : Nat))
            (srcPosY s + (j * s.srcRsize.h.toNat / s.dstRsize.h.toNat : Nat))) →
          pixRead t.mem (dstBitmap s) x y = pixRead s.mem (dstBitmap s) x y) ∧
      ∀ a, ¬inFootprint (dstBitmap s) a → Memory.read t.mem a = Memory.read s.mem a) ∧
  ∀ (s : State) (k : FaultCode), s.fault = false → tableFault .blit s = some k →
    exec .srblit s = .next { s with fault := true, err := k.code, fcmd := 0x00000007 }

/-- 44_scaler.md rules R172, R175: SBLIT completes; a destination pixel of the rectangle takes the converted sample of the
whole source, every other pixel and every byte outside the footprint is unchanged; SRC_X, SRC_Y and SRC_RSIZE play no
part; a check that fails raises its fault. -/
def Obligations.SblitScalesTheWholeSource : Prop :=
  (∀ s : State, ready .sblit s →
    ∃ t, exec .sblit s = .next t ∧ t = { s with mem := t.mem } ∧
      (∀ x y i j : Nat, x < s.dst.w.toNat → y < s.dst.h.toNat → (x : Int) = dstPosX s + i →
        (y : Int) = dstPosY s + j → i < s.dstRsize.w.toNat → j < s.dstRsize.h.toNat →
          pixRead t.mem (dstBitmap s) x y =
            convertPixel s s.src.fmt s.dst.fmt
              (pixRead s.mem (srcBitmap s) (i * s.src.w.toNat / s.dstRsize.w.toNat)
                (j * s.src.h.toNat / s.dstRsize.h.toNat))) ∧
      (∀ x y : Nat, x < s.dst.w.toNat → y < s.dst.h.toNat →
        ((x : Int) < dstPosX s ∨ dstPosX s + s.dstRsize.w.toNat ≤ x ∨ (y : Int) < dstPosY s ∨
          dstPosY s + s.dstRsize.h.toNat ≤ y) →
          pixRead t.mem (dstBitmap s) x y = pixRead s.mem (dstBitmap s) x y) ∧
      ∀ a, ¬inFootprint (dstBitmap s) a → Memory.read t.mem a = Memory.read s.mem a) ∧
  ∀ (s : State) (k : FaultCode), s.fault = false → tableFault .blit s = some k →
    exec .sblit s = .next { s with fault := true, err := k.code, fcmd := 0x00000006 }

/-- 44_scaler.md rule R178: SBLIT with DW = SRC.W and DH = SRC.H has the same effect on memory as BLIT, for every offset. -/
def Obligations.SblitOfEqualSizeIsBlit : Prop :=
  ∀ s : State, s.dstRsize.w = s.src.w → s.dstRsize.h = s.src.h →
    ∃ t t', exec .sblit s = .next t ∧ exec .blit s = .next t' ∧ t.mem = t'.mem ∧ t.fault = t'.fault ∧ t.err = t'.err

/-- 44_scaler.md rule R176, corner cases: SRBLIT with the whole source as its rectangle has the same effect on memory as
SBLIT. -/
def Obligations.SrblitOfTheWholeSourceIsSblit : Prop :=
  ∀ s : State, s.srcX = 0 → s.srcY = 0 → s.srcRsize.w = s.src.w → s.srcRsize.h = s.src.h →
    ∃ t t', exec .srblit s = .next t ∧ exec .sblit s = .next t' ∧ t.mem = t'.mem ∧ t.fault = t'.fault ∧ t.err = t'.err

/-- 44_scaler.md rule R173: a size of 0 makes a scaled blit write nothing, and is no fault. -/
def Obligations.ZeroSizeScalesNothing : Prop :=
  (∀ s : State, ready .srblit s → s.srcRsize.w = 0 ∨ s.srcRsize.h = 0 ∨ s.dstRsize.w = 0 ∨ s.dstRsize.h = 0 →
    exec .srblit s = .next s) ∧
    ∀ s : State, ready .sblit s → s.dstRsize.w = 0 ∨ s.dstRsize.h = 0 → exec .sblit s = .next s

/-! ## The host's memory accesses -/

/-- 20_memory.md rules R62, R64: the host's MW stores the n bytes of a value below 2^(8n) little-endian and changes no other
byte and no register. -/
def Obligations.HostWriteIsLittleEndian : Prop :=
  ∀ (s : State) (addr v : Word) (n : Nat) (rest : List HostAction),
    s.host = .mw addr n v :: rest → 1 ≤ n → n ≤ 4 → addr.toNat + n ≤ 2 ^ 32 → v.toNat < 2 ^ (8 * n) →
      ∃ t, step s = .next t ∧ t = { s with host := rest, mem := t.mem } ∧
        (∀ k < n, Memory.read t.mem (addr.toNat + k) = v.extractLsb' (8 * k) 8) ∧
        ∀ a, (a < addr.toNat ∨ addr.toNat + n ≤ a) → Memory.read t.mem a = Memory.read s.mem a

/-- 20_memory.md rule R63: the host's MR returns the sum of the n bytes, each times its power of 256, and changes no
register and no byte. -/
def Obligations.HostReadIsLittleEndian : Prop :=
  ∀ (s : State) (addr : Word) (n : Nat) (rest : List HostAction),
    s.host = .mr addr n :: rest → 1 ≤ n → n ≤ 4 → addr.toNat + n ≤ 2 ^ 32 →
      ∃ v : Word, step s = .next { s with host := rest, answers := s.answers ++ [v] } ∧
        v.toNat = ∑ k ∈ Finset.range n, (Memory.read s.mem (addr.toNat + k)).toNat * 2 ^ (8 * k)

/-- The model's choice, log 6: a host access of a width outside 1 to 4, or past 2^32, where 20_memory.md rules R63 and R64
define nothing, stops by name. -/
def Obligations.UndefinedHostAccessStops : Prop :=
  (∀ (s : State) (addr v : Word) (n : Nat) (rest : List HostAction),
    s.host = .mw addr n v :: rest ∨ s.host = .mr addr n :: rest → n = 0 ∨ 4 < n →
      step s = .fault .hostAccessWidth) ∧
    ∀ (s : State) (addr v : Word) (n : Nat) (rest : List HostAction),
      s.host = .mw addr n v :: rest ∨ s.host = .mr addr n :: rest → 1 ≤ n → n ≤ 4 → 2 ^ 32 < addr.toNat + n →
        step s = .fault .hostAccessPastTop

/-- The model's canonical form of pixel memory (log 1): memories that list the same byte, or none, at every address are
equal. -/
def Obligations.CanonicalMemoryIsDeterminedByItsBytes : Prop :=
  ∀ m m' : Memory, Memory.wf m → Memory.wf m' → (∀ a, Memory.lookup m a = Memory.lookup m' a) → m = m'

/-! ## Host programs -/

/-- 30_encoding.md rule R91: each drawing call, as its sequence of host actions, runs its command on the operands of the
call, whatever the registers held before; a blit call may name any of the six forms. -/
def Obligations.DrawingCallsRunTheirCommand : Prop :=
  (∀ (form : Instr) (d r : Desc) (x y : Word) (s : State), s.fault = false →
    runHost (apiBlit form d r x y) s = exec form { s with dst := d, src := r, dstX := x, dstY := y, host := [] }) ∧
  (∀ (d r : Desc) (x y : Word) (z : Size) (s : State), s.fault = false →
    runHost (apiScaledBlit d r x y z) s =
      exec .sblit { s with dst := d, src := r, dstX := x, dstY := y, dstRsize := z, host := [] }) ∧
  (∀ (d r : Desc) (sx sy : Word) (sz : Size) (x y : Word) (z : Size) (s : State), s.fault = false →
    runHost (apiScaledRegionBlit d r sx sy sz x y z) s =
      exec .srblit
        { s with
          dst := d, src := r, srcX := sx, srcY := sy, srcRsize := sz, dstX := x, dstY := y, dstRsize := z, host := [] }) ∧
  (∀ (d : Desc) (x y c : Word) (s : State), s.fault = false →
    runHost (apiPutPixel d x y c) s = exec .putpixel { s with dst := d, dstX := x, dstY := y, color := c, host := [] }) ∧
  ∀ (d : Desc) (c : Word) (s : State), s.fault = false →
    runHost (apiClear d c) s = exec .clear { s with dst := d, color := c, host := [] }

/-- 30_encoding.md rule R91: the calls `convert(sf, df, p)` and `encode(fmt, rgba)` return the converted pixel and the
encoded colour. -/
def Obligations.ConverterCallsReturnTheirPixel : Prop :=
  (∀ (sf df : BitVec 3) (p : Word) (s : State), s.fault = false → known s sf = true → known s df = true →
    ∃ t v, runHost (apiConvert sf df p) s = .next t ∧ t.fault = false ∧ t.mem = s.mem ∧ t.answers = s.answers ++ [v] ∧
      v.toNat = convertPixel s sf df p.toNat) ∧
    ∀ (f : BitVec 3) (c : Word) (s : State), s.fault = false → known s f = true →
      ∃ t v, runHost (apiEncode f c) s = .next t ∧ t.fault = false ∧ t.mem = s.mem ∧ t.answers = s.answers ++ [v] ∧
        v.toNat = encodePixel (fmtSlot s f) c.toNat

/-! ## Invariants and progress -/

/-- The invariant holds after reset. -/
def Obligations.InvariantHoldsAtReset : Prop := Invariant State.reset

/-- Every step keeps the invariant: memory stays canonical and within the address space (20_memory.md rule R61), and the
fault record stays one that a fault can leave (10_state.md rules R24, R27; 60_exceptions.md rule R191). -/
def Obligations.EveryStepKeepsTheInvariant : Prop :=
  ∀ s t : State, Invariant s → step s = .next t → Invariant t

/-- 10_state.md rule R20: no command and no register write changes the parameters; the constant registers KEY and slots 1 to
7 read as before after any step. -/
def Obligations.NoStepChangesTheParameters : Prop :=
  ∀ s t : State, step s = .next t →
    t.cfg = s.cfg ∧ ∀ o, o = 0x5C ∨ (0x120 ≤ o ∧ o < 0x200) → portRead o t = portRead o s

/-- 10_state.md rule R48: with no host action to come the engine is idle. -/
def Obligations.EngineIsIdleWithoutAHostAction : Prop :=
  ∀ s : State, s.host = [] → step s = .next s

/-- 00_scope.md rule R13: every command terminates, and the pixels it visits are bounded by 65535 · 65535;
70_reset_and_hazards.md rule R230: how many they are. -/
def Obligations.EveryCommandTerminates : Prop :=
  ∀ (i : Instr) (s : State),
    (∃ t, exec i s = .next t) ∧ pixelsVisited i s ≤ 65535 * 65535 ∧
      (i = .convert ∨ i = .encode → pixelsVisited i s = 0) ∧
      (i = .putpixel ∨ i = .putpixelAdd → pixelsVisited i s ≤ 1) ∧
      (i = .clear → pixelsVisited i s = s.dst.w.toNat * s.dst.h.toNat) ∧
      (i ∈ blitForms.map Prod.fst →
        (pixelsVisited i s : Int) = max 0 (clipX s).count * max 0 (clipY s).count) ∧
      (i = .sblit ∨ i = .srblit → pixelsVisited i s ≤ s.dstRsize.w.toNat * s.dstRsize.h.toNat)

/-- 10_state.md rule R23, 20_memory.md rule R78: a step stops only at a host memory access that the spec does not define;
nothing is refused. -/
def Obligations.OnlyUndefinedHostAccessesStop : Prop :=
  ∀ s : State,
    (∃ t, step s = .next t) ∨
      ∃ (addr v : Word) (n : Nat) (rest : List HostAction) (f : Fault),
        (s.host = .mw addr n v :: rest ∨ s.host = .mr addr n :: rest) ∧
          (n = 0 ∨ 4 < n ∨ 2 ^ 32 < addr.toNat + n) ∧ step s = .fault f

/-! ## The model's own choices -/

/-- The model's choice, log 13: exec makes the check of 60_exceptions.md rule R196 again, so that a command in a faulted
engine changes nothing; exec by itself is a step of no machine. -/
def Obligations.ExecInAFaultedEngineChangesNothing : Prop :=
  ∀ (i : Instr) (s : State), s.fault = true → exec i s = .next s

/-- The model's choice, log 10: where 20_memory.md rule R64 defines nothing, for a value that n bytes cannot hold, the host's
MW stores the n low bytes of the value and changes no other byte and no register. -/
def Obligations.HostWriteOfAWideValueStoresItsLowBytes : Prop :=
  ∀ (s : State) (addr v : Word) (n : Nat) (rest : List HostAction),
    s.host = .mw addr n v :: rest → 1 ≤ n → n ≤ 4 → addr.toNat + n ≤ 2 ^ 32 → 2 ^ (8 * n) ≤ v.toNat →
      ∃ t, step s = .next t ∧ t = { s with host := rest, mem := t.mem } ∧
        (∀ k < n, Memory.read t.mem (addr.toNat + k) = v.extractLsb' (8 * k) 8) ∧
        ∀ a, (a < addr.toNat ∨ addr.toNat + n ≤ a) → Memory.read t.mem a = Memory.read s.mem a
end

