-- ==== Sys2Proof/Laws/Convert.lean ====
section
/-! SUPPORT. Laws of the converter and of the additive blend, bit by bit and channel by channel (40_convert.md rules R100,
R101, R104 to R108; 41_combine.md rules R124, R125). -/

namespace Sys2Proof.Laws

open Sys2Proof.Machine

/-! ### Bits -/

theorem ones_lt (n : Nat) : ones n < 2 ^ n := by
  have := Nat.two_pow_pos n
  unfold ones
  omega

theorem and_ones (a n : Nat) : a &&& ones n = a % 2 ^ n := Nat.and_two_pow_sub_one_eq_mod a n

@[simp] theorem testBit_ones (n b : Nat) : (ones n).testBit b = decide (b < n) := Nat.testBit_two_pow_sub_one n b

@[simp] theorem testBit_clearBits (a m b : Nat) : (clearBits a m).testBit b = (a.testBit b && !m.testBit b) := by
  cases ha : a.testBit b <;> cases hm : m.testBit b <;> simp [clearBits, ha, hm]

/-! ### One channel -/

@[simp] theorem testBit_chanMask (f : PixFmt) (c : Chan) (b : Nat) :
    (chanMask f c).testBit b = (decide (off f c ≤ b) && decide (b - off f c < wid f c)) := by
  simp [chanMask, Nat.testBit_shiftLeft]

@[simp] theorem testBit_chanGet (f : PixFmt) (c : Chan) (p b : Nat) :
    (chanGet f c p).testBit b = (p.testBit (off f c + b) && decide (b < wid f c)) := by
  simp [chanGet, Nat.testBit_shiftRight]

@[simp] theorem testBit_chanPut (f : PixFmt) (c : Chan) (v b : Nat) :
    (chanPut f c v).testBit b = (decide (off f c ≤ b) && v.testBit (b - off f c)) := by
  simp [chanPut, Nat.testBit_shiftLeft]

theorem chanGet_lt (f : PixFmt) (c : Chan) (p : Nat) : chanGet f c p < 2 ^ wid f c := by
  rw [chanGet, and_ones]
  exact Nat.mod_lt _ (Nat.two_pow_pos _)

theorem canonical_lt (c : Nat) (k : Chan) : canonical c k < 2 ^ 8 := Nat.mod_lt _ (by norm_num)

/-- A number below 2^n has no bit at or above n. -/
theorem testBit_of_lt {v n b : Nat} (h : v < 2 ^ n) (hb : n ≤ b) : v.testBit b = false :=
  Nat.testBit_lt_two_pow (lt_of_lt_of_le h (Nat.pow_le_pow_right (by norm_num) hb))

/-- `0 ≤ r < 2^wd` (40_convert.md rule R101). -/
theorem rescale_lt {v ws : Nat} (wd : Nat) (h : v < 2 ^ ws) : rescale v ws wd < 2 ^ wd := by
  unfold rescale
  split
  · rename_i hlt
    rw [Nat.shiftRight_eq_div_pow, Nat.div_lt_iff_lt_mul (Nat.two_pow_pos _), ← pow_add]
    rwa [show wd + (ws - wd) = ws by omega]
  · split
    · rename_i hlt
      rw [Nat.shiftLeft_eq, show wd = ws + (wd - ws) by omega, pow_add, show ws + (wd - ws) - ws = wd - ws by omega]
      exact Nat.mul_lt_mul_of_pos_right h (Nat.two_pow_pos _)
    · exact lt_of_lt_of_le h (Nat.pow_le_pow_right (by norm_num) (by omega))

@[simp] theorem rescale_self (v w : Nat) : rescale v w w = v := by simp [rescale]

/-- Widening and narrowing back is the identity (40_convert.md rule R113, item 2). -/
theorem rescale_rescale {wa wb : Nat} (v : Nat) (h : wa ≤ wb) : rescale (rescale v wa wb) wb wa = v := by
  rcases Nat.eq_or_lt_of_le h with rfl | h
  · simp
  · simp [rescale, h, Nat.not_lt.mpr h.le, Nat.shiftLeft_shiftRight]

/-! ### Valid formats -/

/-- `valid_fmt` as three facts (10_state.md rule R31). -/
theorem validFmt_iff (f : PixFmt) :
    validFmt f = true ↔
      (bpp f = 8 ∨ bpp f = 16 ∨ bpp f = 24 ∨ bpp f = 32) ∧ (∀ c, wid f c = 0 ∨ off f c + wid f c ≤ bpp f) ∧
        ∀ c d, c ≠ d → wid f c = 0 ∨ wid f d = 0 ∨ off f c + wid f c ≤ off f d ∨ off f d + wid f d ≤ off f c := by
  have hall (P : Chan → Prop) : (∀ c, P c) ↔ P .R ∧ P .G ∧ P .B ∧ P .A :=
    ⟨fun h => ⟨h _, h _, h _, h _⟩, fun h c => by cases c <;> simp [h]⟩
  simp [validFmt, channels, chanDisjoint, hall, or_assoc, and_assoc]

section Valid

variable {f : PixFmt} (hf : validFmt f = true)

include hf

theorem bpp_le : bpp f ≤ 32 := by
  have := ((validFmt_iff f).mp hf).1
  omega

theorem bpp_eq : bpp f = 8 * pixBytes f := by
  have := ((validFmt_iff f).mp hf).1
  unfold pixBytes
  omega

theorem pixBytes_range : 1 ≤ pixBytes f ∧ pixBytes f ≤ 4 := by
  have := ((validFmt_iff f).mp hf).1
  unfold pixBytes
  omega

/-- A bit a channel covers lies below bpp. -/
theorem covered_lt {c : Chan} {b : Nat} (h1 : off f c ≤ b) (h2 : b < off f c + wid f c) : b < bpp f := by
  have := ((validFmt_iff f).mp hf).2.1 c
  omega

/-- No bit is covered twice. -/
theorem covered_unique {c d : Chan} {b : Nat} (hc1 : off f c ≤ b) (hc2 : b < off f c + wid f c) (hd1 : off f d ≤ b)
    (hd2 : b < off f d + wid f d) : c = d := by
  by_contra hne
  have := ((validFmt_iff f).mp hf).2.2 c d hne
  omega

end Valid

/-! ### Four channels packed -/

/-- A bit of a packed pixel comes from some channel. -/
theorem testBit_orChannels (f : PixFmt) (g : Chan → Nat) (b : Nat) :
    (orChannels fun k => chanPut f k (g k)).testBit b = true ↔ ∃ k, off f k ≤ b ∧ (g k).testBit (b - off f k) = true := by
  constructor
  · intro h
    simp only [orChannels, Nat.testBit_or, testBit_chanPut, Bool.or_eq_true, Bool.and_eq_true, decide_eq_true_eq] at h
    rcases h with ((h | h) | h) | h
    exacts [⟨.R, h⟩, ⟨.G, h⟩, ⟨.B, h⟩, ⟨.A, h⟩]
  · rintro ⟨k, h1, h2⟩
    cases k <;> simp [orChannels, h1, h2]

section Packed

variable {f : PixFmt} (hf : validFmt f = true) {g : Chan → Nat} (hg : ∀ k, g k < 2 ^ wid f k)

include hg

theorem covered_of_bit {k : Chan} {b : Nat} (h1 : off f k ≤ b) (h : (g k).testBit (b - off f k) = true) :
    b < off f k + wid f k := by
  by_contra hlt
  rw [testBit_of_lt (hg k) (by omega)] at h
  simp at h

/-- Bits no channel covers are 0 (40_convert.md rule R107). -/
theorem orChannels_uncovered {b : Nat} (h : ∀ k, ¬(off f k ≤ b ∧ b < off f k + wid f k)) :
    (orChannels fun k => chanPut f k (g k)).testBit b = false := by
  rw [← Bool.not_eq_true, testBit_orChannels]
  rintro ⟨k, h1, h2⟩
  exact h k ⟨h1, covered_of_bit hg h1 h2⟩

include hf

/-- Each field of a packed pixel holds the value put there (40_convert.md rules R104, R105). -/
theorem chanGet_orChannels (c : Chan) : chanGet f c (orChannels fun k => chanPut f k (g k)) = g c := by
  apply Nat.eq_of_testBit_eq
  intro b
  rw [testBit_chanGet]
  by_cases hb : b < wid f c
  · rw [Bool.eq_iff_iff]
    simp only [hb, decide_true, Bool.and_true, testBit_orChannels]
    constructor
    · rintro ⟨k, h1, h2⟩
      have hk := covered_of_bit hg h1 h2
      obtain rfl := covered_unique hf h1 hk (c := k) (d := c) (by omega) (by omega)
      simpa using h2
    · intro h
      exact ⟨c, by omega, by simpa using h⟩
  · simp [hb, testBit_of_lt (hg c) (Nat.le_of_not_lt hb)]

/-- A packed pixel is below 2^bpp (40_convert.md rule R108). -/
theorem orChannels_lt : (orChannels fun k => chanPut f k (g k)) < 2 ^ bpp f := by
  apply Nat.lt_pow_two_of_testBit
  intro b hb
  apply orChannels_uncovered hg
  rintro k ⟨h1, h2⟩
  have := covered_lt hf h1 h2
  omega

end Packed

/-! ### encode and convert -/

theorem encode_field_lt (f : PixFmt) (c : Nat) (k : Chan) : rescale (canonical c k) 8 (wid f k) < 2 ^ wid f k :=
  rescale_lt _ (canonical_lt c k)

theorem convert_field_lt (fs fd : PixFmt) (p : Nat) (k : Chan) :
    rescale (chanGet fs k p) (wid fs k) (wid fd k) < 2 ^ wid fd k :=
  rescale_lt _ (chanGet_lt fs k p)

theorem chanGet_encodePixel {f : PixFmt} (hf : validFmt f = true) (c : Nat) (k : Chan) :
    chanGet f k (encodePixel f c) = rescale (canonical c k) 8 (wid f k) :=
  chanGet_orChannels hf (encode_field_lt f c) k

theorem encodePixel_lt {f : PixFmt} (hf : validFmt f = true) (c : Nat) : encodePixel f c < 2 ^ bpp f :=
  orChannels_lt hf (encode_field_lt f c)

theorem chanGet_convertChannels (fs : PixFmt) {fd : PixFmt} (hf : validFmt fd = true) (p : Nat) (k : Chan) :
    chanGet fd k (convertChannels fs fd p) = rescale (chanGet fs k p) (wid fs k) (wid fd k) :=
  chanGet_orChannels hf (convert_field_lt fs fd p) k

theorem convertChannels_lt (fs : PixFmt) {fd : PixFmt} (hf : validFmt fd = true) (p : Nat) :
    convertChannels fs fd p < 2 ^ bpp fd :=
  orChannels_lt hf (convert_field_lt fs fd p)

/-- "Every value passed to PixWrite therefore fits" (40_convert.md rule R108). -/
theorem convertPixel_lt (s : State) (ids : BitVec 3) {idd : BitVec 3} (hd : known s idd = true) {p : Nat}
    (hp : p < 2 ^ bpp (fmtSlot s ids)) : convertPixel s ids idd p < 2 ^ bpp (fmtSlot s idd) := by
  unfold convertPixel
  split
  · rename_i h
    rwa [← h]
  · exact convertChannels_lt _ hd p

/-! ### The additive blend -/

theorem decode8_lt (f : PixFmt) (c : Chan) (p : Nat) : decode8 f c p < 2 ^ 8 := rescale_lt _ (chanGet_lt f c p)

/-- The field value an ADD computes for one channel (41_combine.md rule R124). -/
def addField (f : PixFmt) (d p : Nat) (c : Chan) : Nat := rescale (min 255 (decode8 f c d + decode8 f c p)) 8 (wid f c)

theorem addField_lt (f : PixFmt) (d p : Nat) (c : Chan) : addField f d p c < 2 ^ wid f c :=
  rescale_lt _ (lt_of_le_of_lt (min_le_left _ _) (by norm_num))

/-- One step of the blend writes its channel's bits and no other. -/
theorem testBit_addChannel (f : PixFmt) (d p out : Nat) (c : Chan) (b : Nat) :
    (addChannel f d p out c).testBit b =
      if off f c ≤ b ∧ b < off f c + wid f c then (addField f d p c).testBit (b - off f c) else out.testBit b := by
  unfold addChannel
  by_cases hw : 0 < wid f c
  · rw [if_pos hw, Nat.testBit_or, testBit_clearBits, testBit_chanMask, testBit_chanPut]
    by_cases h1 : off f c ≤ b
    · by_cases h2 : b < off f c + wid f c
      · simp [h1, h2, show b - off f c < wid f c by omega, addField]
      · have := testBit_of_lt (addField_lt f d p c) (b := b - off f c) (by omega)
        unfold addField at this
        simp [h1, h2, show ¬b - off f c < wid f c by omega, this]
    · simp [h1]
  · rw [if_neg hw, if_neg (by omega)]

/-- Bits outside R, G and B keep the destination's value (41_combine.md rule R125). -/
theorem testBit_addPixel_outside (f : PixFmt) (d p : Nat) {b : Nat}
    (h : ∀ c, c ≠ .A → ¬(off f c ≤ b ∧ b < off f c + wid f c)) : (addPixel f d p).testBit b = d.testBit b := by
  simp only [addPixel, List.foldl, testBit_addChannel, if_neg (h .R (by decide)), if_neg (h .G (by decide)),
    if_neg (h .B (by decide))]

/-- The R, G and B fields are the blended ones (41_combine.md rule R124). -/
theorem chanGet_addPixel {f : PixFmt} (hf : validFmt f = true) (d p : Nat) {c : Chan} (hc : c ≠ .A) :
    chanGet f c (addPixel f d p) = addField f d p c := by
  apply Nat.eq_of_testBit_eq
  intro b
  rw [testBit_chanGet]
  by_cases hb : b < wid f c
  · have huniq : ∀ k, (off f k ≤ off f c + b ∧ off f c + b < off f k + wid f k) → k = c := fun k hk =>
      covered_unique hf hk.1 hk.2 (by omega) (by omega)
    have hpos : off f c ≤ off f c + b ∧ off f c + b < off f c + wid f c := by omega
    simp only [addPixel, List.foldl, testBit_addChannel, hb, decide_true, Bool.and_true]
    cases c
    · rw [if_neg fun h => by simpa using huniq .B h, if_neg fun h => by simpa using huniq .G h, if_pos hpos]
      simp
    · rw [if_neg fun h => by simpa using huniq .B h, if_pos hpos]
      simp
    · rw [if_pos hpos]
      simp
    · exact absurd rfl hc
  · simp [hb, testBit_of_lt (addField_lt f d p c) (Nat.le_of_not_lt hb)]

/-- The alpha field keeps the destination's value (41_combine.md rule R125). -/
theorem chanGet_addPixel_alpha {f : PixFmt} (hf : validFmt f = true) (d p : Nat) :
    chanGet f .A (addPixel f d p) = chanGet f .A d := by
  apply Nat.eq_of_testBit_eq
  intro b
  rw [testBit_chanGet, testBit_chanGet]
  by_cases hb : b < wid f .A
  · rw [testBit_addPixel_outside f d p fun c hc h => hc (covered_unique hf h.1 h.2 (by omega) (by omega))]
  · simp [hb]

/-- The result is below 2^bpp whenever d is (41_combine.md rule R126, item 5). -/
theorem addPixel_lt {f : PixFmt} (hf : validFmt f = true) {d : Nat} (p : Nat) (hd : d < 2 ^ bpp f) :
    addPixel f d p < 2 ^ bpp f := by
  apply Nat.lt_pow_two_of_testBit
  intro b hb
  rw [testBit_addPixel_outside f d p fun c _ h => ?_, testBit_of_lt hd hb]
  have := covered_lt hf h.1 h.2
  omega

end Sys2Proof.Laws
end

