-- ==== Sys2Proof/Laws/Memory.lean ====
section
/-! SUPPORT. Laws of pixel memory: reading after writing, at byte, word and pixel width, and the canonical form. Later proofs
cite these and do not unfold the memory operations. -/

namespace Sys2Proof.Laws

open Sys2Proof.Machine

/-! ### One byte -/

theorem lookup_erase (m : Memory) (a k : Nat) :
    Memory.lookup (Memory.erase m a) k = if k = a then none else Memory.lookup m k := by
  induction m with
  | nil => simp [Memory.erase, Memory.lookup]
  | cons c rest ih =>
    have hcons : Memory.erase (c :: rest) a = if c.1 = a then Memory.erase rest a else c :: Memory.erase rest a := by
      by_cases h : c.1 = a <;> simp [Memory.erase, h]
    rw [hcons]
    by_cases h : c.1 = a
    · rw [if_pos h, ih, Memory.lookup]
      by_cases hk : k = a
      · simp [hk]
      · rw [if_neg hk, if_neg hk, if_neg (by omega)]
    · rw [if_neg h, Memory.lookup, Memory.lookup, ih]
      by_cases hk : c.1 = k
      · rw [if_pos hk, if_neg (by omega), if_pos hk]
      · rw [if_neg hk, if_neg hk]

theorem lookup_place_of_absent (m : Memory) (a k : Nat) (b : Byte) (h : ∀ c ∈ m, c.1 ≠ a) :
    Memory.lookup (Memory.place m a b) k = if k = a then some b else Memory.lookup m k := by
  induction m with
  | nil =>
    rcases eq_or_ne a k with hk | hk
    · simp [Memory.place, Memory.lookup, hk]
    · simp [Memory.place, Memory.lookup, hk, hk.symm]
  | cons c rest ih =>
    have hc : c.1 ≠ a := h c (by simp)
    have ih' := ih fun d hd => h d (by simp [hd])
    unfold Memory.place
    by_cases hlt : a < c.1
    · rw [if_pos hlt, Memory.lookup]
      by_cases hk : k = a
      · simp [hk]
      · rw [if_neg hk, if_neg (Ne.symm hk)]
    · rw [if_neg hlt, Memory.lookup, ih', Memory.lookup]
      by_cases hk : c.1 = k
      · rw [if_pos hk, if_pos hk, if_neg (by omega)]
      · rw [if_neg hk, if_neg hk]

theorem erase_absent (m : Memory) (a : Nat) : ∀ c ∈ Memory.erase m a, c.1 ≠ a := by
  intro c hc
  simp only [Memory.erase, List.mem_filter, bne_iff_ne] at hc
  exact hc.2

theorem lookup_write (m : Memory) (a k : Nat) (b : Byte) :
    Memory.lookup (Memory.write m a b) k = if k = a then some b else Memory.lookup m k := by
  rw [Memory.write, lookup_place_of_absent _ _ _ _ (erase_absent m a), lookup_erase]
  by_cases hk : k = a <;> simp [hk]

/-- A read after a write (20_memory.md rule R70), in every memory, canonical or not. -/
theorem read_write (m : Memory) (a k : Nat) (b : Byte) :
    Memory.read (Memory.write m a b) k = if k = a then b else Memory.read m k := by
  rw [Memory.read, lookup_write]
  by_cases hk : k = a
  · rw [if_pos hk, if_pos hk, Option.getD_some]
  · rw [if_neg hk, if_neg hk, Memory.read]

@[simp] theorem read_write_same (m : Memory) (a : Nat) (b : Byte) : Memory.read (Memory.write m a b) a = b := by
  rw [read_write, if_pos rfl]

theorem read_write_other (m : Memory) {a k : Nat} (b : Byte) (h : k ≠ a) :
    Memory.read (Memory.write m a b) k = Memory.read m k := by
  rw [read_write, if_neg h]

/-! ### The canonical form -/

theorem wf_nil : Memory.wf [] := ⟨List.Pairwise.nil, by simp⟩

theorem wf_erase {m : Memory} (h : Memory.wf m) (a : Nat) : Memory.wf (Memory.erase m a) :=
  ⟨h.1.filter _, fun c hc => h.2 c (List.mem_filter.mp hc).1⟩

theorem mem_place {m : Memory} {a : Nat} {b : Byte} {c : Host.Cell} :
    c ∈ Memory.place m a b ↔ c = (a, b) ∨ c ∈ m := by
  induction m with
  | nil => simp [Memory.place]
  | cons d rest ih =>
    unfold Memory.place
    by_cases hlt : a < d.1
    · simp [hlt]
    · simp only [if_neg hlt, List.mem_cons, ih]
      tauto

theorem wf_place {m : Memory} (h : Memory.wf m) {a : Nat} {b : Byte} (ha : a < 2 ^ 32)
    (habs : ∀ c ∈ m, c.1 ≠ a) : Memory.wf (Memory.place m a b) := by
  refine ⟨?_, fun c hc => ?_⟩
  · have hp := h.1
    clear h
    induction m with
    | nil => simp [Memory.place]
    | cons d rest ih =>
      have hd : d.1 ≠ a := habs d (by simp)
      rw [List.pairwise_cons] at hp
      unfold Memory.place
      by_cases hlt : a < d.1
      · rw [if_pos hlt, List.pairwise_cons, List.pairwise_cons]
        refine ⟨fun c hc => ?_, hp⟩
        rcases List.mem_cons.mp hc with rfl | hc
        · exact hlt
        · exact lt_trans hlt (hp.1 c hc)
      · rw [if_neg hlt, List.pairwise_cons]
        refine ⟨fun c hc => ?_, ih (fun c hc => habs c (by simp [hc])) hp.2⟩
        rcases mem_place.mp hc with rfl | hc
        · show d.1 < a
          omega
        · exact hp.1 c hc
  · rcases mem_place.mp hc with rfl | hc
    · exact ha
    · exact h.2 c hc

/-- A byte written within the address space keeps the canonical form. -/
theorem wf_write {m : Memory} (h : Memory.wf m) {a : Nat} (ha : a < 2 ^ 32) (b : Byte) :
    Memory.wf (Memory.write m a b) :=
  wf_place (wf_erase h a) ha (erase_absent m a)

/-- A canonical memory finds the listed byte at an address it lists. -/
theorem lookup_of_mem {m : Memory} (h : m.Pairwise fun c d => c.1 < d.1) {c : Host.Cell} (hc : c ∈ m) :
    Memory.lookup m c.1 = some c.2 := by
  induction m with
  | nil => simp at hc
  | cons d rest ih =>
    rw [List.pairwise_cons] at h
    rw [Memory.lookup]
    rcases List.mem_cons.mp hc with rfl | hc
    · rw [if_pos rfl]
    · rw [if_neg (by have := h.1 c hc; omega)]
      exact ih h.2 hc

/-- An address below every listed one is unlisted. -/
theorem lookup_of_lt {m : Memory} {a : Nat} (h : ∀ c ∈ m, a < c.1) : Memory.lookup m a = none := by
  induction m with
  | nil => rfl
  | cons d rest ih =>
    have hd : a < d.1 := h d (by simp)
    rw [Memory.lookup, if_neg (by omega)]
    exact ih fun c hc => h c (by simp [hc])

/-! ### n bytes -/

theorem read_memWrite (m : Memory) (addr n v k : Nat) :
    Memory.read (memWrite m addr n v) k =
      if addr ≤ k ∧ k < addr + n then BitVec.ofNat 8 (v / 256 ^ (k - addr)) else Memory.read m k := by
  induction n generalizing m addr v with
  | zero => rw [memWrite, if_neg (by omega)]
  | succ n ih =>
    rw [memWrite, ih, read_write]
    by_cases h0 : k = addr
    · subst h0
      simp
    · by_cases h1 : addr + 1 ≤ k ∧ k < addr + 1 + n
      · rw [if_pos h1, if_pos (by omega), show k - addr = (k - (addr + 1)) + 1 by omega, pow_succ', Nat.div_div_eq_div_mul]
      · rw [if_neg h1, if_neg h0, if_neg (by omega)]

/-- A store changes no byte outside it (20_memory.md rule R64). -/
theorem read_memWrite_outside (m : Memory) {addr n k : Nat} (v : Nat) (h : k < addr ∨ addr + n ≤ k) :
    Memory.read (memWrite m addr n v) k = Memory.read m k := by
  rw [read_memWrite, if_neg (by omega)]

theorem wf_memWrite {m : Memory} (h : Memory.wf m) {addr n : Nat} (v : Nat) (hn : addr + n ≤ 2 ^ 32) :
    Memory.wf (memWrite m addr n v) := by
  induction n generalizing m addr v with
  | zero => exact h
  | succ n ih => exact ih (wf_write h (by omega) _) _ (by omega)

/-- A read depends only on the bytes it reads (20_memory.md rule R63). -/
theorem memRead_congr {m m' : Memory} {addr n : Nat}
    (h : ∀ k, addr ≤ k → k < addr + n → Memory.read m k = Memory.read m' k) : memRead m addr n = memRead m' addr n := by
  induction n generalizing addr with
  | zero => rfl
  | succ n ih =>
    rw [memRead, memRead, h addr le_rfl (by omega), ih fun k h1 h2 => h k (by omega) (by omega)]

/-- `MemRead` as the sum of 20_memory.md rule R63. -/
theorem memRead_eq_sum (m : Memory) (addr n : Nat) :
    memRead m addr n = ∑ k ∈ Finset.range n, (Memory.read m (addr + k)).toNat * 2 ^ (8 * k) := by
  induction n generalizing addr with
  | zero => simp [memRead]
  | succ n ih =>
    rw [memRead, ih, Finset.sum_range_succ', Finset.mul_sum, Nat.add_comm]
    congr 1
    · refine Finset.sum_congr rfl fun k _ => ?_
      rw [show addr + 1 + k = addr + (k + 1) by omega]
      ring
    · simp

theorem memRead_lt (m : Memory) (addr n : Nat) : memRead m addr n < 256 ^ n := by
  induction n generalizing addr with
  | zero => simp [memRead]
  | succ n ih =>
    have h1 := (Memory.read m addr).isLt
    have h2 := ih (addr + 1)
    rw [memRead, pow_succ']
    omega

/-- A read after the store of the same bytes gives the value stored (20_memory.md rules R63, R64, R70). -/
theorem memRead_memWrite_same (m : Memory) (addr n v : Nat) : memRead (memWrite m addr n v) addr n = v % 256 ^ n := by
  induction n generalizing m addr v with
  | zero => simp [memRead, Nat.mod_one]
  | succ n ih =>
    rw [memRead, memWrite, ih, read_memWrite_outside _ _ (by omega), read_write_same, pow_succ', Nat.mod_mul]
    simp

theorem memRead_memWrite_apart (m : Memory) {addr n addr' n' : Nat} (v : Nat)
    (h : addr' + n' ≤ addr ∨ addr + n ≤ addr') : memRead (memWrite m addr n v) addr' n' = memRead m addr' n' :=
  memRead_congr fun k h1 h2 => read_memWrite_outside m v (by omega)

end Sys2Proof.Laws
end

