-- ==== Sys2Proof/Laws/Pixels.lean ====
section
/-! SUPPORT. Laws of pixels in memory: where a pixel lies (20_memory.md rule R65), that two pixels of a bitmap share no byte,
and what writing or combining one pixel does to every pixel and byte. -/

namespace Sys2Proof.Laws

open Sys2Proof.Machine

/-! ### Where a pixel lies -/

/-- The bytes of a pixel lie in the footprint (20_memory.md rules R65 to R67). -/
theorem pixAddr_in {d : Bitmap} {x y : Nat} (hx : x < d.w) (hy : y < d.h) :
    d.base ≤ pixAddr d x y ∧ pixAddr d x y + pixBytes d.fmt ≤ d.base + memsize d := by
  refine ⟨Nat.le_add_right _ _, ?_⟩
  have h1 : y * d.w + x + 1 ≤ d.w * d.h := by nlinarith
  have h2 := Nat.mul_le_mul_right (pixBytes d.fmt) h1
  unfold pixAddr memsize
  rw [Nat.add_mul, one_mul] at h2
  omega

/-- Two pixels of one bitmap share no byte (20_memory.md rule R65). -/
theorem pixAddr_apart {d : Bitmap} {x y x' y' : Nat} (hx : x < d.w) (hx' : x' < d.w) (hne : (x, y) ≠ (x', y')) :
    pixAddr d x' y' + pixBytes d.fmt ≤ pixAddr d x y ∨ pixAddr d x y + pixBytes d.fmt ≤ pixAddr d x' y' := by
  have hidx : y * d.w + x ≠ y' * d.w + x' := by
    intro h
    have hmod : x = x' := by
      have := congrArg (· % d.w) h
      simpa [Nat.mul_add_mod, Nat.add_mod, Nat.mod_eq_of_lt hx, Nat.mod_eq_of_lt hx'] using this
    subst hmod
    have hy : y * d.w = y' * d.w := by omega
    exact hne (by rw [Nat.eq_of_mul_eq_mul_right (by omega) hy])
  unfold pixAddr
  rcases Nat.lt_or_gt_of_ne hidx with h | h
  · right
    have := Nat.mul_le_mul_right (pixBytes d.fmt) (Nat.succ_le_of_lt h)
    rw [Nat.succ_mul] at this
    omega
  · left
    have := Nat.mul_le_mul_right (pixBytes d.fmt) (Nat.succ_le_of_lt h)
    rw [Nat.succ_mul] at this
    omega

/-- A valid descriptor's footprint ends at or below 2^32 (10_state.md rule R45). -/
theorem validDesc_iff (d : Bitmap) : validDesc d = true ↔ 1 ≤ d.w ∧ 1 ≤ d.h ∧ d.base + memsize d ≤ 2 ^ 32 := by
  simp [validDesc]

theorem pow_bytes {f : PixFmt} (hf : validFmt f = true) : 256 ^ pixBytes f = 2 ^ bpp f := by
  rw [bpp_eq hf, show (256 : Nat) = 2 ^ 8 by norm_num, ← pow_mul]

/-! ### Reading and writing one pixel -/

theorem pixRead_lt {d : Bitmap} (hf : validFmt d.fmt = true) (m : Memory) (x y : Nat) : pixRead m d x y < 2 ^ bpp d.fmt := by
  rw [← pow_bytes hf]
  exact memRead_lt _ _ _

theorem pixRead_pixWrite_same {d : Bitmap} (hf : validFmt d.fmt = true) (m : Memory) (x y : Nat) {p : Nat}
    (hp : p < 2 ^ bpp d.fmt) : pixRead (pixWrite m d x y p) d x y = p := by
  rw [pixRead, pixWrite, memRead_memWrite_same, pow_bytes hf, Nat.mod_eq_of_lt hp]

theorem pixRead_pixWrite_other {d : Bitmap} (m : Memory) {x y x' y' : Nat} (p : Nat) (hx : x < d.w) (hx' : x' < d.w)
    (hne : (x', y') ≠ (x, y)) : pixRead (pixWrite m d x y p) d x' y' = pixRead m d x' y' :=
  memRead_memWrite_apart _ _ (pixAddr_apart hx hx' (Ne.symm hne))

/-- A pixel write changes no byte outside the pixel (20_memory.md rules R64, R67). -/
theorem read_pixWrite_outside {d : Bitmap} (m : Memory) {x y : Nat} (p : Nat) {a : Nat}
    (h : a < pixAddr d x y ∨ pixAddr d x y + pixBytes d.fmt ≤ a) :
    Memory.read (pixWrite m d x y p) a = Memory.read m a :=
  read_memWrite_outside _ _ h

/-- A pixel read depends only on the footprint (20_memory.md rule R69). -/
theorem pixRead_congr {d : Bitmap} {m m' : Memory} {x y : Nat} (hx : x < d.w) (hy : y < d.h)
    (h : ∀ a, inFootprint d a → Memory.read m a = Memory.read m' a) : pixRead m d x y = pixRead m' d x y := by
  have hin := pixAddr_in hx hy
  exact memRead_congr fun k h1 h2 => h k ⟨by omega, by omega⟩

/-! ### Combining one pixel -/

/-- The value a combine leaves at a destination pixel that held `old`, for the converted pixel p. -/
def combineValue (comb : Comb) (f : PixFmt) (old p : Nat) : Nat :=
  match comb with
  | .replace => p
  | .key => p
  | .add => addPixel f old p

theorem combineWrite_eq (comb : Comb) (d : Bitmap) (x y p : Nat) (m : Memory) :
    combineWrite comb d x y p m = pixWrite m d x y (combineValue comb d.fmt (pixRead m d x y) p) := by
  cases comb <;> rfl

theorem combineValue_lt {f : PixFmt} (hf : validFmt f = true) (comb : Comb) {old p : Nat} (ho : old < 2 ^ bpp f)
    (hp : p < 2 ^ bpp f) : combineValue comb f old p < 2 ^ bpp f := by
  cases comb
  · exact hp
  · exact hp
  · exact addPixel_lt hf p ho

/-- What `emit` does: it leaves the memory, or writes the combined value at its pixel (41_combine.md rule R120). -/
theorem emit_eq (s : State) (comb : Comb) (x y p : Nat) (m : Memory) :
    emit s comb x y p m =
      if comb = .key ∧ p = keyPixel s s.src.fmt then m
      else pixWrite m (dstBitmap s) x y (combined s comb (pixRead m (dstBitmap s) x y) p) := by
  unfold emit
  split
  · rfl
  · rename_i h
    rw [combineWrite_eq]
    cases comb
    · rfl
    · have hp : p ≠ keyPixel s s.src.fmt := fun hp => h ⟨rfl, hp⟩
      simp [combined, combineValue, hp]
    · rfl

/-- DST's format is valid when its id is known (10_state.md rule R32). -/
theorem valid_dst {s : State} (h : known s s.dst.fmt = true) : validFmt (dstBitmap s).fmt = true := h

/-- SRC's format is valid when its id is known (10_state.md rule R32). -/
theorem valid_src {s : State} (h : known s s.src.fmt = true) : validFmt (srcBitmap s).fmt = true := h

section Emit

variable {s : State} (hd : known s s.dst.fmt = true)

include hd

theorem combined_lt (comb : Comb) {old p : Nat} (ho : old < 2 ^ bpp (dstBitmap s).fmt)
    (hp : p < 2 ^ bpp (srcBitmap s).fmt) : combined s comb old p < 2 ^ bpp (dstBitmap s).fmt := by
  have hc : convertPixel s s.src.fmt s.dst.fmt p < 2 ^ bpp (dstBitmap s).fmt := convertPixel_lt s s.src.fmt hd hp
  cases comb
  · exact hc
  · simp only [combined]
    split
    · exact ho
    · exact hc
  · exact addPixel_lt (valid_dst hd) _ ho

/-- After `emit`, every destination pixel of the bitmap (41_combine.md rule R120). -/
theorem pixRead_emit (comb : Comb) {x y p x' y' : Nat} (m : Memory) (hx : x < (dstBitmap s).w) (hx' : x' < (dstBitmap s).w)
    (hp : p < 2 ^ bpp (srcBitmap s).fmt) :
    pixRead (emit s comb x y p m) (dstBitmap s) x' y' =
      if (x', y') = (x, y) then combined s comb (pixRead m (dstBitmap s) x y) p else pixRead m (dstBitmap s) x' y' := by
  rw [emit_eq]
  by_cases hk : comb = .key ∧ p = keyPixel s s.src.fmt
  · rw [if_pos hk]
    split
    · rename_i h
      obtain ⟨rfl, rfl⟩ := Prod.mk.inj h
      simp [combined, hk.1, hk.2]
    · rfl
  · rw [if_neg hk]
    split
    · rename_i h
      obtain ⟨rfl, rfl⟩ := Prod.mk.inj h
      exact pixRead_pixWrite_same (valid_dst hd) _ _ _ (combined_lt hd comb (pixRead_lt (valid_dst hd) _ _ _) hp)
    · rename_i h
      exact pixRead_pixWrite_other _ _ hx hx' h

omit hd

/-- `emit` changes no byte outside the destination footprint (20_memory.md rule R69). -/
theorem read_emit_outside (comb : Comb) {x y p a : Nat} (m : Memory) (hx : x < (dstBitmap s).w) (hy : y < (dstBitmap s).h)
    (ha : ¬inFootprint (dstBitmap s) a) : Memory.read (emit s comb x y p m) a = Memory.read m a := by
  have hin := pixAddr_in hx hy
  rw [emit_eq]
  split
  · rfl
  · apply read_pixWrite_outside
    unfold inFootprint at ha
    omega

/-- `emit` within a valid destination keeps the canonical form. -/
theorem wf_emit (comb : Comb) {x y p : Nat} {m : Memory} (hm : Memory.wf m) (hx : x < (dstBitmap s).w)
    (hy : y < (dstBitmap s).h) (hv : validDesc (dstBitmap s) = true) : Memory.wf (emit s comb x y p m) := by
  have hin := pixAddr_in hx hy
  have hv := (validDesc_iff _).mp hv
  rw [emit_eq]
  split
  · exact hm
  · exact wf_memWrite hm _ (by omega)

end Emit

end Sys2Proof.Laws
end

