-- ==== Sys2Proof/Laws/Moves.lean ====
section
/-! SUPPORT. Laws of lists of pixel moves: which moves a blit and a scaled blit make (43_blit.md rules R152 to R154, R161;
44_scaler.md rules R172 to R174), and what running a list of moves does to every pixel and byte. -/

namespace Sys2Proof.Laws

open Sys2Proof.Machine

/-! ### Running moves -/

/-- Every move of the list lies in both bitmaps. -/
def MovesIn (s : State) (moves : List Move) : Prop :=
  ∀ q ∈ moves, q.x < (dstBitmap s).w ∧ q.y < (dstBitmap s).h ∧ q.u < (srcBitmap s).w ∧ q.v < (srcBitmap s).h

/-- No two moves of the list write one pixel. -/
def MovesDistinct (moves : List Move) : Prop := (moves.map fun q => (q.x, q.y)).Nodup

@[simp] theorem runMoves_nil (s : State) (comb : Comb) (m : Memory) : runMoves s comb [] m = m := rfl

theorem runMoves_cons (s : State) (comb : Comb) (q : Move) (rest : List Move) (m : Memory) :
    runMoves s comb (q :: rest) m =
      runMoves s comb rest (emit s comb q.x q.y (pixRead m (srcBitmap s) q.u q.v) m) := rfl

section Run

variable {s : State} {moves : List Move} (hin : MovesIn s moves)

include hin

/-- Moves change no byte outside the destination footprint (20_memory.md rule R69). -/
theorem read_runMoves_outside (comb : Comb) (m : Memory) {a : Nat} (ha : ¬inFootprint (dstBitmap s) a) :
    Memory.read (runMoves s comb moves m) a = Memory.read m a := by
  induction moves generalizing m with
  | nil => rfl
  | cons q rest ih =>
    have hq := hin q (by simp)
    rw [runMoves_cons, ih fun r hr => hin r (by simp [hr]), read_emit_outside comb m hq.1 hq.2.1 ha]

/-- Moves within a valid destination keep the canonical form. -/
theorem wf_runMoves (comb : Comb) {m : Memory} (hm : Memory.wf m) (hv : validDesc (dstBitmap s) = true) :
    Memory.wf (runMoves s comb moves m) := by
  induction moves generalizing m with
  | nil => exact hm
  | cons q rest ih =>
    have hq := hin q (by simp)
    exact ih (fun r hr => hin r (by simp [hr])) (wf_emit comb hm hq.1 hq.2.1 hv)

/-- What moves leave in the two footprints depends on nothing outside them (20_memory.md rule R69). -/
theorem runMoves_congr (comb : Comb) {m m' : Memory}
    (h : ∀ a, inFootprint (srcBitmap s) a ∨ inFootprint (dstBitmap s) a → Memory.read m a = Memory.read m' a) {a : Nat}
    (ha : inFootprint (srcBitmap s) a ∨ inFootprint (dstBitmap s) a) :
    Memory.read (runMoves s comb moves m) a = Memory.read (runMoves s comb moves m') a := by
  induction moves generalizing m m' with
  | nil => exact h a ha
  | cons q rest ih =>
    have hq := hin q (by simp)
    have hs : pixRead m (srcBitmap s) q.u q.v = pixRead m' (srcBitmap s) q.u q.v :=
      pixRead_congr hq.2.2.1 hq.2.2.2 fun b hb => h b (.inl hb)
    have hd : pixRead m (dstBitmap s) q.x q.y = pixRead m' (dstBitmap s) q.x q.y :=
      pixRead_congr hq.1 hq.2.1 fun b hb => h b (.inr hb)
    rw [runMoves_cons, runMoves_cons]
    refine ih (fun r hr => hin r (by simp [hr])) fun b hb => ?_
    rw [emit_eq, emit_eq, hs, hd]
    split
    · exact h b hb
    · simp only [pixWrite, read_memWrite]
      split
      · rfl
      · exact h b hb

/-- A destination pixel that no move writes keeps its value. -/
theorem pixRead_runMoves_other (hd : known s s.dst.fmt = true) (hs : known s s.src.fmt = true) (comb : Comb) (m : Memory)
    {x y : Nat} (hx : x < (dstBitmap s).w) (hno : ∀ q ∈ moves, (x, y) ≠ (q.x, q.y)) :
    pixRead (runMoves s comb moves m) (dstBitmap s) x y = pixRead m (dstBitmap s) x y := by
  induction moves generalizing m with
  | nil => rfl
  | cons q rest ih =>
    have hq := hin q (by simp)
    rw [runMoves_cons, ih (fun r hr => hin r (by simp [hr])) _ fun r hr => hno r (by simp [hr]),
      pixRead_emit hd comb m hq.1 hx (pixRead_lt (valid_src hs) _ _ _), if_neg (hno q (by simp))]

/-- A source pixel keeps its value when the footprints do not overlap (43_blit.md rule R151). -/
theorem pixRead_src_emit {q : Move} (hq : q ∈ moves) (hov : overlaps (srcBitmap s) (dstBitmap s) = false) (comb : Comb)
    (p : Nat) (m : Memory) {u v : Nat} (hu : u < (srcBitmap s).w) (hv : v < (srcBitmap s).h) :
    pixRead (emit s comb q.x q.y p m) (srcBitmap s) u v = pixRead m (srcBitmap s) u v := by
  have hq' := hin q hq
  have hsrc := pixAddr_in hu hv
  apply memRead_congr
  intro a h1 h2
  apply read_emit_outside comb m hq'.1 hq'.2.1
  simp only [overlaps, decide_eq_false_iff_not] at hov
  unfold inFootprint
  omega

/-- A move writes the combined value of what its two pixels held before the run. -/
theorem pixRead_runMoves_moved (hdist : MovesDistinct moves) (hd : known s s.dst.fmt = true) (hs : known s s.src.fmt = true)
    (hov : overlaps (srcBitmap s) (dstBitmap s) = false) (comb : Comb) (m : Memory) {q : Move} (hq : q ∈ moves) :
    pixRead (runMoves s comb moves m) (dstBitmap s) q.x q.y =
      combined s comb (pixRead m (dstBitmap s) q.x q.y) (pixRead m (srcBitmap s) q.u q.v) := by
  induction moves generalizing m with
  | nil => simp at hq
  | cons r rest ih =>
    have hr := hin r (by simp)
    have hrest : MovesIn s rest := fun t ht => hin t (by simp [ht])
    have hdist' : (r.x, r.y) ∉ rest.map (fun q => (q.x, q.y)) ∧ (rest.map fun q => (q.x, q.y)).Nodup := by
      simpa only [MovesDistinct, List.map_cons, List.nodup_cons] using hdist
    have hqin := hin q hq
    rw [runMoves_cons]
    rcases List.mem_cons.mp hq with rfl | hq
    · rw [pixRead_runMoves_other hrest hd hs _ _ hqin.1 fun t ht h =>
        hdist'.1 (List.mem_map.mpr ⟨t, ht, h.symm⟩),
        pixRead_emit hd comb m hqin.1 hqin.1 (pixRead_lt (valid_src hs) _ _ _), if_pos rfl]
    · have hne : (q.x, q.y) ≠ (r.x, r.y) := fun h => hdist'.1 (List.mem_map.mpr ⟨q, hq, h⟩)
      rw [ih hrest hdist'.2 _ hq, pixRead_emit hd comb m hr.1 hqin.1 (pixRead_lt (valid_src hs) _ _ _), if_neg hne,
        pixRead_src_emit hin (by simp) hov comb _ m hqin.2.2.1 hqin.2.2.2]

end Run

/-! ### Rectangles of indices -/

theorem mem_rectIndices {cols rows : Nat} {q : Nat × Nat} : q ∈ rectIndices cols rows ↔ q.1 < cols ∧ q.2 < rows := by
  simp only [rectIndices, List.mem_flatMap, List.mem_range, List.mem_map]
  constructor
  · rintro ⟨j, hj, i, hi, rfl⟩
    exact ⟨hi, hj⟩
  · rintro ⟨hi, hj⟩
    exact ⟨q.2, hj, q.1, hi, rfl⟩

theorem length_rectIndices (cols rows : Nat) : (rectIndices cols rows).length = cols * rows := by
  simp [rectIndices, List.length_flatMap, Nat.mul_comm]

theorem nodup_rectIndices (cols rows : Nat) : (rectIndices cols rows).Nodup := by
  rw [rectIndices, List.nodup_flatMap]
  refine ⟨fun j _ => ?_, ?_⟩
  · exact List.nodup_range.map fun a b h => (Prod.mk.inj h).1
  · refine List.nodup_range.pairwise_of_forall_ne fun j _ k _ hne => ?_
    intro q hq hq'
    obtain ⟨i, _, rfl⟩ := List.mem_map.mp hq
    obtain ⟨i', _, h⟩ := List.mem_map.mp hq'
    exact hne (Prod.mk.inj h).2.symm

/-! ### The moves of a blit -/

/-- Which moves a blit makes: the image of the source, mirrored if asked, placed at (X, Y) and clipped (43_blit.md rules
R152, R154, R161). -/
theorem mem_blitMoves {s : State} {hflip : Bool} {q : Move} :
    q ∈ blitMoves s hflip ↔
      (q.x < (dstBitmap s).w ∧ q.y < (dstBitmap s).h) ∧ inSource s (q.x - dstPosX s) (q.y - dstPosY s) ∧
        (q.u : Int) = (if hflip then (srcBitmap s).w - 1 - (q.x - dstPosX s) else q.x - dstPosX s) ∧
          (q.v : Int) = q.y - dstPosY s := by
  obtain ⟨x, y, u, v⟩ := q
  simp only [blitMoves, List.mem_map, mem_rectIndices, Move.mk.injEq, inSource, blitColumn, clipX, clipY, clipAxis,
    Prod.exists]
  constructor
  · rintro ⟨i, j, ⟨hi, hj⟩, rfl, rfl, rfl, rfl⟩
    cases hflip <;> simp only [Bool.false_eq_true, if_false, if_true] <;> omega
  · rintro ⟨hxy, hsrc, hu, hv⟩
    refine ⟨x - (max 0 (dstPosX s)).toNat, y - (max 0 (dstPosY s)).toNat, ?_⟩
    cases hflip <;> simp only [Bool.false_eq_true, if_false, if_true] at hu ⊢ <;> omega

theorem blitMoves_in (s : State) (hflip : Bool) : MovesIn s (blitMoves s hflip) := by
  intro q hq
  obtain ⟨hxy, hsrc, hu, hv⟩ := mem_blitMoves.mp hq
  unfold inSource at hsrc
  cases hflip <;> simp only [Bool.false_eq_true, if_false, if_true] at hu <;> omega

theorem blitMoves_distinct (s : State) (hflip : Bool) : MovesDistinct (blitMoves s hflip) := by
  rw [MovesDistinct, blitMoves, List.map_map]
  refine (nodup_rectIndices _ _).map_on fun q hq r hr h => ?_
  simp only [Function.comp_apply, Prod.mk.injEq, clipX, clipY, clipAxis] at h
  ext <;> omega

/-! ### The moves of a scaled blit -/

theorem nearest_lt {i sn dn : Nat} (hi : i < dn) (hs : 1 ≤ sn) : nearest i sn dn < sn := by
  unfold nearest
  rw [Nat.div_lt_iff_lt_mul (by omega)]
  nlinarith

theorem inRange_iff (i : Int) (n : Nat) : inRange i n = true ↔ 0 ≤ i ∧ i < n := by simp [inRange]

/-- When an index pair gives a move, and which (44_scaler.md rule R172). -/
theorem scaledMove_eq_some {s : State} {r : ScaleRect} {p : Nat × Nat} {q : Move} :
    scaledMove s r p = some q ↔
      ((q.x : Int) = r.dx + p.1 ∧ (q.y : Int) = r.dy + p.2 ∧ (q.u : Int) = r.sx + nearest p.1 r.sw r.dw ∧
        (q.v : Int) = r.sy + nearest p.2 r.sh r.dh) ∧
        q.x < (dstBitmap s).w ∧ q.y < (dstBitmap s).h ∧ q.u < (srcBitmap s).w ∧ q.v < (srcBitmap s).h := by
  obtain ⟨x, y, u, v⟩ := q
  unfold scaledMove
  dsimp only
  split
  · rename_i hb
    simp only [Bool.and_eq_true, inRange_iff] at hb
    simp only [Option.some.injEq, Move.mk.injEq]
    omega
  · rename_i hb
    simp only [Bool.and_eq_true, inRange_iff] at hb
    simp only [reduceCtorEq, false_iff]
    omega

/-- Which moves a scaled blit makes: the mapping on the rectangles as given, clipped pixel by pixel (44_scaler.md rules
R172 to R174). -/
theorem mem_scaledMoves {s : State} {r : ScaleRect} {q : Move} :
    q ∈ scaledMoves s r ↔
      (r.sw ≠ 0 ∧ r.sh ≠ 0) ∧ ∃ i j : Nat, i < r.dw ∧ j < r.dh ∧ (q.x : Int) = r.dx + i ∧ (q.y : Int) = r.dy + j ∧
        (q.u : Int) = r.sx + nearest i r.sw r.dw ∧ (q.v : Int) = r.sy + nearest j r.sh r.dh ∧
          q.x < (dstBitmap s).w ∧ q.y < (dstBitmap s).h ∧ q.u < (srcBitmap s).w ∧ q.v < (srcBitmap s).h := by
  obtain ⟨x, y, u, v⟩ := q
  unfold scaledMoves
  split
  · rename_i h
    simp only [List.not_mem_nil, false_iff]
    rintro ⟨hs, i, j, hi, hj, _⟩
    omega
  · rename_i h
    simp only [List.mem_filterMap, mem_rectIndices, scaledMove_eq_some, Prod.exists]
    constructor
    · rintro ⟨i, j, ⟨hi, hj⟩, ⟨hx, hy, hu, hv⟩, hb⟩
      exact ⟨by omega, i, j, hi, hj, hx, hy, hu, hv, hb⟩
    · rintro ⟨hs, i, j, hi, hj, hx, hy, hu, hv, hb⟩
      exact ⟨i, j, ⟨hi, hj⟩, ⟨hx, hy, hu, hv⟩, hb⟩

theorem scaledMoves_in (s : State) (r : ScaleRect) : MovesIn s (scaledMoves s r) := by
  intro q hq
  obtain ⟨_, i, j, _, _, _, _, _, _, hb⟩ := mem_scaledMoves.mp hq
  exact hb

theorem scaledMoves_distinct (s : State) (r : ScaleRect) : MovesDistinct (scaledMoves s r) := by
  unfold MovesDistinct scaledMoves
  split
  · simp
  · rw [List.map_filterMap]
    refine (nodup_rectIndices _ _).filterMap fun q q' p hq hq' => ?_
    simp only [Option.mem_def, Option.map_eq_some_iff, scaledMove_eq_some] at hq hq'
    obtain ⟨mv, ⟨h1, _⟩, rfl⟩ := hq
    obtain ⟨mv', ⟨h2, _⟩, h3⟩ := hq'
    have h4 := Prod.mk.inj h3
    ext <;> omega

/-! ### The order of moves -/

/-- Row order: rows ascending, and within a row columns ascending (20_memory.md rule R72). -/
def RowOrder (q r : Nat × Nat) : Prop := q.2 < r.2 ∨ (q.2 = r.2 ∧ q.1 < r.1)

/-- One move's destination comes before another's in row order. -/
def MoveOrder (q r : Move) : Prop := RowOrder (q.x, q.y) (r.x, r.y)

theorem rectIndices_ordered (cols rows : Nat) : (rectIndices cols rows).Pairwise RowOrder := by
  rw [rectIndices, List.pairwise_flatMap]
  refine ⟨fun j _ => ?_, List.pairwise_lt_range.imp fun h => ?_⟩
  · rw [List.pairwise_map]
    exact List.pairwise_lt_range.imp fun h => .inr ⟨rfl, h⟩
  · intro q hq r hr
    obtain ⟨i, _, rfl⟩ := List.mem_map.mp hq
    obtain ⟨i', _, rfl⟩ := List.mem_map.mp hr
    exact .inl h

theorem blitMoves_ordered (s : State) (hflip : Bool) : (blitMoves s hflip).Pairwise MoveOrder := by
  rw [blitMoves, List.pairwise_map]
  refine (rectIndices_ordered _ _).imp fun {a b} h => ?_
  simp only [RowOrder, MoveOrder, clipX, clipY, clipAxis] at h ⊢
  omega

theorem scaledMoves_ordered (s : State) (r : ScaleRect) : (scaledMoves s r).Pairwise MoveOrder := by
  unfold scaledMoves
  split
  · exact List.Pairwise.nil
  · rw [List.pairwise_filterMap]
    refine (rectIndices_ordered _ _).imp fun {a b} h p hp q hq => ?_
    rw [scaledMove_eq_some] at hp hq
    simp only [RowOrder, MoveOrder] at h ⊢
    omega

/-- Two lists in row order with the same moves are one list. -/
theorem moves_ext {l l' : List Move} (h : l.Pairwise MoveOrder) (h' : l'.Pairwise MoveOrder) (he : ∀ q, q ∈ l ↔ q ∈ l') :
    l = l' := by
  have hirr : ∀ q, ¬MoveOrder q q := by
    intro q hq
    simp only [RowOrder, MoveOrder] at hq
    omega
  induction l generalizing l' with
  | nil => exact (List.eq_nil_iff_forall_not_mem.mpr fun q hq => by simpa using (he q).mpr hq).symm
  | cons a l ih =>
    cases l' with
    | nil => simpa using (he a).mp (by simp)
    | cons b l' =>
      rw [List.pairwise_cons] at h h'
      obtain rfl : a = b := by
        by_contra hne
        have h3 := h.1 b (by simpa [Ne.symm hne] using (he b).mpr (by simp))
        have h4 := h'.1 a (by simpa [hne] using (he a).mp (by simp))
        simp only [RowOrder, MoveOrder] at h3 h4
        omega
      rw [ih h.2 h'.2 fun q => ⟨fun hq => ?_, fun hq => ?_⟩]
      · rcases List.mem_cons.mp ((he q).mp (List.mem_cons_of_mem _ hq)) with rfl | h5
        · exact absurd (h.1 _ hq) (hirr _)
        · exact h5
      · rcases List.mem_cons.mp ((he q).mpr (List.mem_cons_of_mem _ hq)) with rfl | h5
        · exact absurd (h'.1 _ hq) (hirr _)
        · exact h5

/-- A scaled blit at scale one makes the moves of the unscaled blit, at every offset (44_scaler.md rule R178). -/
theorem scaledMoves_unscaled {s : State} (hw : s.dstRsize.w = s.src.w) (hh : s.dstRsize.h = s.src.h) :
    scaledMoves s (sblitRect s) = blitMoves s false := by
  refine moves_ext (scaledMoves_ordered _ _) (blitMoves_ordered _ _) fun q => ?_
  have hnn : ∀ i n, i < n → nearest i n n = i := fun i n h => Nat.mul_div_cancel _ (Nat.zero_lt_of_lt h)
  simp only [mem_blitMoves, mem_scaledMoves, sblitRect, inSource, hw, hh, srcBitmap, dstBitmap, bitmapOf,
    Bool.false_eq_true, if_false]
  constructor
  · rintro ⟨_, i, j, hi, hj, hx, hy, hu, hv, hb⟩
    rw [hnn i _ hi] at hu
    rw [hnn j _ hj] at hv
    omega
  · rintro ⟨h1, h3, h4, h5⟩
    refine ⟨by omega, q.u, q.v, ?_⟩
    rw [hnn q.u _ (by omega), hnn q.v _ (by omega)]
    omega

end Sys2Proof.Laws
end

