-- ==== Sys2Proof/Laws/State.lean ====
section
/-! SUPPORT. The fields of State after each named update, one lemma a field, so that no later proof unfolds an update. -/

namespace Sys2Proof.Laws

open Sys2Proof.Machine

/-! ### raiseFault -/

@[simp] theorem raiseFault_fault (k : FaultCode) (w : Word) (s : State) : (raiseFault k w s).fault = true := rfl
@[simp] theorem raiseFault_err (k : FaultCode) (w : Word) (s : State) : (raiseFault k w s).err = k.code := rfl
@[simp] theorem raiseFault_fcmd (k : FaultCode) (w : Word) (s : State) : (raiseFault k w s).fcmd = w := rfl
@[simp] theorem raiseFault_src (k : FaultCode) (w : Word) (s : State) : (raiseFault k w s).src = s.src := rfl
@[simp] theorem raiseFault_dst (k : FaultCode) (w : Word) (s : State) : (raiseFault k w s).dst = s.dst := rfl
@[simp] theorem raiseFault_dstX (k : FaultCode) (w : Word) (s : State) : (raiseFault k w s).dstX = s.dstX := rfl
@[simp] theorem raiseFault_dstY (k : FaultCode) (w : Word) (s : State) : (raiseFault k w s).dstY = s.dstY := rfl
@[simp] theorem raiseFault_dstRsize (k : FaultCode) (w : Word) (s : State) : (raiseFault k w s).dstRsize = s.dstRsize := rfl
@[simp] theorem raiseFault_srcX (k : FaultCode) (w : Word) (s : State) : (raiseFault k w s).srcX = s.srcX := rfl
@[simp] theorem raiseFault_srcY (k : FaultCode) (w : Word) (s : State) : (raiseFault k w s).srcY = s.srcY := rfl
@[simp] theorem raiseFault_srcRsize (k : FaultCode) (w : Word) (s : State) : (raiseFault k w s).srcRsize = s.srcRsize := rfl
@[simp] theorem raiseFault_color (k : FaultCode) (w : Word) (s : State) : (raiseFault k w s).color = s.color := rfl
@[simp] theorem raiseFault_pixin (k : FaultCode) (w : Word) (s : State) : (raiseFault k w s).pixin = s.pixin := rfl
@[simp] theorem raiseFault_pixout (k : FaultCode) (w : Word) (s : State) : (raiseFault k w s).pixout = s.pixout := rfl
@[simp] theorem raiseFault_native (k : FaultCode) (w : Word) (s : State) : (raiseFault k w s).native = s.native := rfl
@[simp] theorem raiseFault_mem (k : FaultCode) (w : Word) (s : State) : (raiseFault k w s).mem = s.mem := rfl
@[simp] theorem raiseFault_cfg (k : FaultCode) (w : Word) (s : State) : (raiseFault k w s).cfg = s.cfg := rfl
@[simp] theorem raiseFault_host (k : FaultCode) (w : Word) (s : State) : (raiseFault k w s).host = s.host := rfl
@[simp] theorem raiseFault_answers (k : FaultCode) (w : Word) (s : State) : (raiseFault k w s).answers = s.answers := rfl

/-! ### resetRegs -/

@[simp] theorem resetRegs_fault (s : State) : (resetRegs s).fault = false := rfl
@[simp] theorem resetRegs_err (s : State) : (resetRegs s).err = 0 := rfl
@[simp] theorem resetRegs_fcmd (s : State) : (resetRegs s).fcmd = 0 := rfl
@[simp] theorem resetRegs_src (s : State) : (resetRegs s).src = Desc.zero := rfl
@[simp] theorem resetRegs_dst (s : State) : (resetRegs s).dst = Desc.zero := rfl
@[simp] theorem resetRegs_dstX (s : State) : (resetRegs s).dstX = 0 := rfl
@[simp] theorem resetRegs_dstY (s : State) : (resetRegs s).dstY = 0 := rfl
@[simp] theorem resetRegs_dstRsize (s : State) : (resetRegs s).dstRsize = Size.zero := rfl
@[simp] theorem resetRegs_srcX (s : State) : (resetRegs s).srcX = 0 := rfl
@[simp] theorem resetRegs_srcY (s : State) : (resetRegs s).srcY = 0 := rfl
@[simp] theorem resetRegs_srcRsize (s : State) : (resetRegs s).srcRsize = Size.zero := rfl
@[simp] theorem resetRegs_color (s : State) : (resetRegs s).color = 0 := rfl
@[simp] theorem resetRegs_pixin (s : State) : (resetRegs s).pixin = 0 := rfl
@[simp] theorem resetRegs_pixout (s : State) : (resetRegs s).pixout = 0 := rfl
@[simp] theorem resetRegs_native (s : State) : (resetRegs s).native = zeroFmt := rfl
@[simp] theorem resetRegs_mem (s : State) : (resetRegs s).mem = s.mem := rfl
@[simp] theorem resetRegs_cfg (s : State) : (resetRegs s).cfg = s.cfg := rfl
@[simp] theorem resetRegs_host (s : State) : (resetRegs s).host = s.host := rfl
@[simp] theorem resetRegs_answers (s : State) : (resetRegs s).answers = s.answers := rfl

/-! ### answer -/

@[simp] theorem answer_fault (v : Word) (s : State) : (answer v s).fault = s.fault := rfl
@[simp] theorem answer_err (v : Word) (s : State) : (answer v s).err = s.err := rfl
@[simp] theorem answer_fcmd (v : Word) (s : State) : (answer v s).fcmd = s.fcmd := rfl
@[simp] theorem answer_src (v : Word) (s : State) : (answer v s).src = s.src := rfl
@[simp] theorem answer_dst (v : Word) (s : State) : (answer v s).dst = s.dst := rfl
@[simp] theorem answer_dstX (v : Word) (s : State) : (answer v s).dstX = s.dstX := rfl
@[simp] theorem answer_dstY (v : Word) (s : State) : (answer v s).dstY = s.dstY := rfl
@[simp] theorem answer_dstRsize (v : Word) (s : State) : (answer v s).dstRsize = s.dstRsize := rfl
@[simp] theorem answer_srcX (v : Word) (s : State) : (answer v s).srcX = s.srcX := rfl
@[simp] theorem answer_srcY (v : Word) (s : State) : (answer v s).srcY = s.srcY := rfl
@[simp] theorem answer_srcRsize (v : Word) (s : State) : (answer v s).srcRsize = s.srcRsize := rfl
@[simp] theorem answer_color (v : Word) (s : State) : (answer v s).color = s.color := rfl
@[simp] theorem answer_pixin (v : Word) (s : State) : (answer v s).pixin = s.pixin := rfl
@[simp] theorem answer_pixout (v : Word) (s : State) : (answer v s).pixout = s.pixout := rfl
@[simp] theorem answer_native (v : Word) (s : State) : (answer v s).native = s.native := rfl
@[simp] theorem answer_mem (v : Word) (s : State) : (answer v s).mem = s.mem := rfl
@[simp] theorem answer_cfg (v : Word) (s : State) : (answer v s).cfg = s.cfg := rfl
@[simp] theorem answer_host (v : Word) (s : State) : (answer v s).host = s.host := rfl
@[simp] theorem answer_answers (v : Word) (s : State) : (answer v s).answers = s.answers ++ [v] := rfl

/-! ### placeCommand -/

@[simp] theorem placeCommand_fault (s : State) (w : Word) : (placeCommand s w).fault = s.fault := rfl
@[simp] theorem placeCommand_err (s : State) (w : Word) : (placeCommand s w).err = s.err := rfl
@[simp] theorem placeCommand_fcmd (s : State) (w : Word) : (placeCommand s w).fcmd = s.fcmd := rfl
@[simp] theorem placeCommand_src (s : State) (w : Word) : (placeCommand s w).src = s.src := rfl
@[simp] theorem placeCommand_dst (s : State) (w : Word) : (placeCommand s w).dst = s.dst := rfl
@[simp] theorem placeCommand_dstX (s : State) (w : Word) : (placeCommand s w).dstX = s.dstX := rfl
@[simp] theorem placeCommand_dstY (s : State) (w : Word) : (placeCommand s w).dstY = s.dstY := rfl
@[simp] theorem placeCommand_dstRsize (s : State) (w : Word) : (placeCommand s w).dstRsize = s.dstRsize := rfl
@[simp] theorem placeCommand_srcX (s : State) (w : Word) : (placeCommand s w).srcX = s.srcX := rfl
@[simp] theorem placeCommand_srcY (s : State) (w : Word) : (placeCommand s w).srcY = s.srcY := rfl
@[simp] theorem placeCommand_srcRsize (s : State) (w : Word) : (placeCommand s w).srcRsize = s.srcRsize := rfl
@[simp] theorem placeCommand_color (s : State) (w : Word) : (placeCommand s w).color = s.color := rfl
@[simp] theorem placeCommand_pixin (s : State) (w : Word) : (placeCommand s w).pixin = s.pixin := rfl
@[simp] theorem placeCommand_pixout (s : State) (w : Word) : (placeCommand s w).pixout = s.pixout := rfl
@[simp] theorem placeCommand_native (s : State) (w : Word) : (placeCommand s w).native = s.native := rfl
@[simp] theorem placeCommand_mem (s : State) (w : Word) : (placeCommand s w).mem = s.mem := rfl
@[simp] theorem placeCommand_cfg (s : State) (w : Word) : (placeCommand s w).cfg = s.cfg := rfl
@[simp] theorem placeCommand_host (s : State) (w : Word) : (placeCommand s w).host = .wr cmdIndex w :: s.host := rfl
@[simp] theorem placeCommand_answers (s : State) (w : Word) : (placeCommand s w).answers = s.answers := rfl

/-! ### convertEffect -/

@[simp] theorem convertEffect_fault (s : State) : (convertEffect s).fault = s.fault := rfl
@[simp] theorem convertEffect_err (s : State) : (convertEffect s).err = s.err := rfl
@[simp] theorem convertEffect_fcmd (s : State) : (convertEffect s).fcmd = s.fcmd := rfl
@[simp] theorem convertEffect_src (s : State) : (convertEffect s).src = s.src := rfl
@[simp] theorem convertEffect_dst (s : State) : (convertEffect s).dst = s.dst := rfl
@[simp] theorem convertEffect_dstX (s : State) : (convertEffect s).dstX = s.dstX := rfl
@[simp] theorem convertEffect_dstY (s : State) : (convertEffect s).dstY = s.dstY := rfl
@[simp] theorem convertEffect_dstRsize (s : State) : (convertEffect s).dstRsize = s.dstRsize := rfl
@[simp] theorem convertEffect_srcX (s : State) : (convertEffect s).srcX = s.srcX := rfl
@[simp] theorem convertEffect_srcY (s : State) : (convertEffect s).srcY = s.srcY := rfl
@[simp] theorem convertEffect_srcRsize (s : State) : (convertEffect s).srcRsize = s.srcRsize := rfl
@[simp] theorem convertEffect_color (s : State) : (convertEffect s).color = s.color := rfl
@[simp] theorem convertEffect_pixin (s : State) : (convertEffect s).pixin = s.pixin := rfl
@[simp] theorem convertEffect_pixout (s : State) : (convertEffect s).pixout = BitVec.ofNat 32 (convertPixel s s.src.fmt s.dst.fmt s.pixin.toNat) := rfl
@[simp] theorem convertEffect_native (s : State) : (convertEffect s).native = s.native := rfl
@[simp] theorem convertEffect_mem (s : State) : (convertEffect s).mem = s.mem := rfl
@[simp] theorem convertEffect_cfg (s : State) : (convertEffect s).cfg = s.cfg := rfl
@[simp] theorem convertEffect_host (s : State) : (convertEffect s).host = s.host := rfl
@[simp] theorem convertEffect_answers (s : State) : (convertEffect s).answers = s.answers := rfl

/-! ### encodeEffect -/

@[simp] theorem encodeEffect_fault (s : State) : (encodeEffect s).fault = s.fault := rfl
@[simp] theorem encodeEffect_err (s : State) : (encodeEffect s).err = s.err := rfl
@[simp] theorem encodeEffect_fcmd (s : State) : (encodeEffect s).fcmd = s.fcmd := rfl
@[simp] theorem encodeEffect_src (s : State) : (encodeEffect s).src = s.src := rfl
@[simp] theorem encodeEffect_dst (s : State) : (encodeEffect s).dst = s.dst := rfl
@[simp] theorem encodeEffect_dstX (s : State) : (encodeEffect s).dstX = s.dstX := rfl
@[simp] theorem encodeEffect_dstY (s : State) : (encodeEffect s).dstY = s.dstY := rfl
@[simp] theorem encodeEffect_dstRsize (s : State) : (encodeEffect s).dstRsize = s.dstRsize := rfl
@[simp] theorem encodeEffect_srcX (s : State) : (encodeEffect s).srcX = s.srcX := rfl
@[simp] theorem encodeEffect_srcY (s : State) : (encodeEffect s).srcY = s.srcY := rfl
@[simp] theorem encodeEffect_srcRsize (s : State) : (encodeEffect s).srcRsize = s.srcRsize := rfl
@[simp] theorem encodeEffect_color (s : State) : (encodeEffect s).color = s.color := rfl
@[simp] theorem encodeEffect_pixin (s : State) : (encodeEffect s).pixin = s.pixin := rfl
@[simp] theorem encodeEffect_pixout (s : State) : (encodeEffect s).pixout = BitVec.ofNat 32 (encodePixel (fmtSlot s s.dst.fmt) s.color.toNat) := rfl
@[simp] theorem encodeEffect_native (s : State) : (encodeEffect s).native = s.native := rfl
@[simp] theorem encodeEffect_mem (s : State) : (encodeEffect s).mem = s.mem := rfl
@[simp] theorem encodeEffect_cfg (s : State) : (encodeEffect s).cfg = s.cfg := rfl
@[simp] theorem encodeEffect_host (s : State) : (encodeEffect s).host = s.host := rfl
@[simp] theorem encodeEffect_answers (s : State) : (encodeEffect s).answers = s.answers := rfl

/-! ### clearEffect -/

@[simp] theorem clearEffect_fault (s : State) : (clearEffect s).fault = s.fault := rfl
@[simp] theorem clearEffect_err (s : State) : (clearEffect s).err = s.err := rfl
@[simp] theorem clearEffect_fcmd (s : State) : (clearEffect s).fcmd = s.fcmd := rfl
@[simp] theorem clearEffect_src (s : State) : (clearEffect s).src = s.src := rfl
@[simp] theorem clearEffect_dst (s : State) : (clearEffect s).dst = s.dst := rfl
@[simp] theorem clearEffect_dstX (s : State) : (clearEffect s).dstX = s.dstX := rfl
@[simp] theorem clearEffect_dstY (s : State) : (clearEffect s).dstY = s.dstY := rfl
@[simp] theorem clearEffect_dstRsize (s : State) : (clearEffect s).dstRsize = s.dstRsize := rfl
@[simp] theorem clearEffect_srcX (s : State) : (clearEffect s).srcX = s.srcX := rfl
@[simp] theorem clearEffect_srcY (s : State) : (clearEffect s).srcY = s.srcY := rfl
@[simp] theorem clearEffect_srcRsize (s : State) : (clearEffect s).srcRsize = s.srcRsize := rfl
@[simp] theorem clearEffect_color (s : State) : (clearEffect s).color = s.color := rfl
@[simp] theorem clearEffect_pixin (s : State) : (clearEffect s).pixin = s.pixin := rfl
@[simp] theorem clearEffect_pixout (s : State) : (clearEffect s).pixout = s.pixout := rfl
@[simp] theorem clearEffect_native (s : State) : (clearEffect s).native = s.native := rfl
@[simp] theorem clearEffect_mem (s : State) : (clearEffect s).mem = 
    (clearPixels s).foldl (fun m q => pixWrite m (dstBitmap s) q.1 q.2 (colorPixel s)) s.mem := rfl
@[simp] theorem clearEffect_cfg (s : State) : (clearEffect s).cfg = s.cfg := rfl
@[simp] theorem clearEffect_host (s : State) : (clearEffect s).host = s.host := rfl
@[simp] theorem clearEffect_answers (s : State) : (clearEffect s).answers = s.answers := rfl

/-! ### blitCore -/

@[simp] theorem blitCore_fault (k : Comb) (h : Bool) (s : State) : (blitCore k h s).fault = s.fault := rfl
@[simp] theorem blitCore_err (k : Comb) (h : Bool) (s : State) : (blitCore k h s).err = s.err := rfl
@[simp] theorem blitCore_fcmd (k : Comb) (h : Bool) (s : State) : (blitCore k h s).fcmd = s.fcmd := rfl
@[simp] theorem blitCore_src (k : Comb) (h : Bool) (s : State) : (blitCore k h s).src = s.src := rfl
@[simp] theorem blitCore_dst (k : Comb) (h : Bool) (s : State) : (blitCore k h s).dst = s.dst := rfl
@[simp] theorem blitCore_dstX (k : Comb) (h : Bool) (s : State) : (blitCore k h s).dstX = s.dstX := rfl
@[simp] theorem blitCore_dstY (k : Comb) (h : Bool) (s : State) : (blitCore k h s).dstY = s.dstY := rfl
@[simp] theorem blitCore_dstRsize (k : Comb) (h : Bool) (s : State) : (blitCore k h s).dstRsize = s.dstRsize := rfl
@[simp] theorem blitCore_srcX (k : Comb) (h : Bool) (s : State) : (blitCore k h s).srcX = s.srcX := rfl
@[simp] theorem blitCore_srcY (k : Comb) (h : Bool) (s : State) : (blitCore k h s).srcY = s.srcY := rfl
@[simp] theorem blitCore_srcRsize (k : Comb) (h : Bool) (s : State) : (blitCore k h s).srcRsize = s.srcRsize := rfl
@[simp] theorem blitCore_color (k : Comb) (h : Bool) (s : State) : (blitCore k h s).color = s.color := rfl
@[simp] theorem blitCore_pixin (k : Comb) (h : Bool) (s : State) : (blitCore k h s).pixin = s.pixin := rfl
@[simp] theorem blitCore_pixout (k : Comb) (h : Bool) (s : State) : (blitCore k h s).pixout = s.pixout := rfl
@[simp] theorem blitCore_native (k : Comb) (h : Bool) (s : State) : (blitCore k h s).native = s.native := rfl
@[simp] theorem blitCore_mem (k : Comb) (h : Bool) (s : State) : (blitCore k h s).mem = runMoves s k (blitMoves s h) s.mem := rfl
@[simp] theorem blitCore_cfg (k : Comb) (h : Bool) (s : State) : (blitCore k h s).cfg = s.cfg := rfl
@[simp] theorem blitCore_host (k : Comb) (h : Bool) (s : State) : (blitCore k h s).host = s.host := rfl
@[simp] theorem blitCore_answers (k : Comb) (h : Bool) (s : State) : (blitCore k h s).answers = s.answers := rfl

/-! ### scaledCore -/

@[simp] theorem scaledCore_fault (r : State → ScaleRect) (s : State) : (scaledCore r s).fault = s.fault := rfl
@[simp] theorem scaledCore_err (r : State → ScaleRect) (s : State) : (scaledCore r s).err = s.err := rfl
@[simp] theorem scaledCore_fcmd (r : State → ScaleRect) (s : State) : (scaledCore r s).fcmd = s.fcmd := rfl
@[simp] theorem scaledCore_src (r : State → ScaleRect) (s : State) : (scaledCore r s).src = s.src := rfl
@[simp] theorem scaledCore_dst (r : State → ScaleRect) (s : State) : (scaledCore r s).dst = s.dst := rfl
@[simp] theorem scaledCore_dstX (r : State → ScaleRect) (s : State) : (scaledCore r s).dstX = s.dstX := rfl
@[simp] theorem scaledCore_dstY (r : State → ScaleRect) (s : State) : (scaledCore r s).dstY = s.dstY := rfl
@[simp] theorem scaledCore_dstRsize (r : State → ScaleRect) (s : State) : (scaledCore r s).dstRsize = s.dstRsize := rfl
@[simp] theorem scaledCore_srcX (r : State → ScaleRect) (s : State) : (scaledCore r s).srcX = s.srcX := rfl
@[simp] theorem scaledCore_srcY (r : State → ScaleRect) (s : State) : (scaledCore r s).srcY = s.srcY := rfl
@[simp] theorem scaledCore_srcRsize (r : State → ScaleRect) (s : State) : (scaledCore r s).srcRsize = s.srcRsize := rfl
@[simp] theorem scaledCore_color (r : State → ScaleRect) (s : State) : (scaledCore r s).color = s.color := rfl
@[simp] theorem scaledCore_pixin (r : State → ScaleRect) (s : State) : (scaledCore r s).pixin = s.pixin := rfl
@[simp] theorem scaledCore_pixout (r : State → ScaleRect) (s : State) : (scaledCore r s).pixout = s.pixout := rfl
@[simp] theorem scaledCore_native (r : State → ScaleRect) (s : State) : (scaledCore r s).native = s.native := rfl
@[simp] theorem scaledCore_mem (r : State → ScaleRect) (s : State) : (scaledCore r s).mem = runMoves s .replace (scaledMoves s (r s)) s.mem := rfl
@[simp] theorem scaledCore_cfg (r : State → ScaleRect) (s : State) : (scaledCore r s).cfg = s.cfg := rfl
@[simp] theorem scaledCore_host (r : State → ScaleRect) (s : State) : (scaledCore r s).host = s.host := rfl
@[simp] theorem scaledCore_answers (r : State → ScaleRect) (s : State) : (scaledCore r s).answers = s.answers := rfl

/-! ### putPixelEffect -/

@[simp] theorem putPixelEffect_fault (k : Comb) (s : State) : (putPixelEffect k s).fault = s.fault := by
  unfold putPixelEffect
  split <;> rfl
@[simp] theorem putPixelEffect_err (k : Comb) (s : State) : (putPixelEffect k s).err = s.err := by
  unfold putPixelEffect
  split <;> rfl
@[simp] theorem putPixelEffect_fcmd (k : Comb) (s : State) : (putPixelEffect k s).fcmd = s.fcmd := by
  unfold putPixelEffect
  split <;> rfl
@[simp] theorem putPixelEffect_src (k : Comb) (s : State) : (putPixelEffect k s).src = s.src := by
  unfold putPixelEffect
  split <;> rfl
@[simp] theorem putPixelEffect_dst (k : Comb) (s : State) : (putPixelEffect k s).dst = s.dst := by
  unfold putPixelEffect
  split <;> rfl
@[simp] theorem putPixelEffect_dstX (k : Comb) (s : State) : (putPixelEffect k s).dstX = s.dstX := by
  unfold putPixelEffect
  split <;> rfl
@[simp] theorem putPixelEffect_dstY (k : Comb) (s : State) : (putPixelEffect k s).dstY = s.dstY := by
  unfold putPixelEffect
  split <;> rfl
@[simp] theorem putPixelEffect_dstRsize (k : Comb) (s : State) : (putPixelEffect k s).dstRsize = s.dstRsize := by
  unfold putPixelEffect
  split <;> rfl
@[simp] theorem putPixelEffect_srcX (k : Comb) (s : State) : (putPixelEffect k s).srcX = s.srcX := by
  unfold putPixelEffect
  split <;> rfl
@[simp] theorem putPixelEffect_srcY (k : Comb) (s : State) : (putPixelEffect k s).srcY = s.srcY := by
  unfold putPixelEffect
  split <;> rfl
@[simp] theorem putPixelEffect_srcRsize (k : Comb) (s : State) : (putPixelEffect k s).srcRsize = s.srcRsize := by
  unfold putPixelEffect
  split <;> rfl
@[simp] theorem putPixelEffect_color (k : Comb) (s : State) : (putPixelEffect k s).color = s.color := by
  unfold putPixelEffect
  split <;> rfl
@[simp] theorem putPixelEffect_pixin (k : Comb) (s : State) : (putPixelEffect k s).pixin = s.pixin := by
  unfold putPixelEffect
  split <;> rfl
@[simp] theorem putPixelEffect_pixout (k : Comb) (s : State) : (putPixelEffect k s).pixout = s.pixout := by
  unfold putPixelEffect
  split <;> rfl
@[simp] theorem putPixelEffect_native (k : Comb) (s : State) : (putPixelEffect k s).native = s.native := by
  unfold putPixelEffect
  split <;> rfl
@[simp] theorem putPixelEffect_mem (k : Comb) (s : State) : (putPixelEffect k s).mem =
    if pixelInBounds s then combineWrite k (dstBitmap s) (dstPosX s).toNat (dstPosY s).toNat (colorPixel s) s.mem
    else s.mem := by
  unfold putPixelEffect
  split <;> rfl
@[simp] theorem putPixelEffect_cfg (k : Comb) (s : State) : (putPixelEffect k s).cfg = s.cfg := by
  unfold putPixelEffect
  split <;> rfl
@[simp] theorem putPixelEffect_host (k : Comb) (s : State) : (putPixelEffect k s).host = s.host := by
  unfold putPixelEffect
  split <;> rfl
@[simp] theorem putPixelEffect_answers (k : Comb) (s : State) : (putPixelEffect k s).answers = s.answers := by
  unfold putPixelEffect
  split <;> rfl

end Sys2Proof.Laws
end

