-- ==== Sys2Proof/Laws/Ops.lean ====
section
/-! SUPPORT. Everything a command, a register write and a step can do, said once: later proofs cite these inversions and do
not unfold exec, the port or the step. -/

namespace Sys2Proof.Laws

open Sys2Proof.Machine

/-! ### The checks -/

theorem convertChecks_eq (s : State) : firstFailing (convertChecks s) = tableFault .convert s := by
  cases h1 : known s s.src.fmt <;> cases h2 : known s s.dst.fmt <;> simp [convertChecks, firstFailing, tableFault, h1, h2]

theorem encodeChecks_eq (s : State) : firstFailing (encodeChecks s) = tableFault .encode s := by
  cases h2 : known s s.dst.fmt <;> simp [encodeChecks, firstFailing, tableFault, h2]

theorem pixelChecks_eq (s : State) : firstFailing (pixelChecks s) = tableFault .pixel s := by
  cases h2 : known s s.dst.fmt <;> cases h4 : validDesc (dstBitmap s) <;>
    simp [pixelChecks, firstFailing, tableFault, h2, h4]

theorem blitChecks_eq (s : State) : firstFailing (blitChecks s) = tableFault .blit s := by
  cases h1 : known s s.src.fmt <;> cases h2 : known s s.dst.fmt <;> cases h3 : validDesc (srcBitmap s) <;>
    cases h4 : validDesc (dstBitmap s) <;> cases h5 : overlaps (srcBitmap s) (dstBitmap s) <;>
      simp [blitChecks, firstFailing, tableFault, h1, h2, h3, h4, h5]

/-- What holds when a pixel command's checks pass (42_pixel_ops.md rule R143). -/
theorem pixel_checked {s : State} (h : tableFault .pixel s = none) :
    known s s.dst.fmt = true ∧ validDesc (dstBitmap s) = true := by
  cases h2 : known s s.dst.fmt <;> cases h4 : validDesc (dstBitmap s) <;> simp_all [tableFault]

/-- What holds when a blit's checks pass (43_blit.md rule R150). -/
theorem blit_checked {s : State} (h : tableFault .blit s = none) :
    known s s.src.fmt = true ∧ known s s.dst.fmt = true ∧ validDesc (srcBitmap s) = true ∧
      validDesc (dstBitmap s) = true ∧ overlaps (srcBitmap s) (dstBitmap s) = false := by
  cases h1 : known s s.src.fmt <;> cases h2 : known s s.dst.fmt <;> cases h3 : validDesc (srcBitmap s) <;>
    cases h4 : validDesc (dstBitmap s) <;> cases h5 : overlaps (srcBitmap s) (dstBitmap s) <;> simp_all [tableFault]

/-- Only a command of a column that checks descriptors raises E_DESC or E_OVERLAP, and none raises E_ILLEGAL (60_exceptions.md
rule R191). -/
theorem tableFault_code {col : CheckColumn} {s : State} {k : FaultCode} (h : tableFault col s = some k) :
    k = .format ∨ (k = .desc ∧ col ≠ .convert ∧ col ≠ .encode) ∨ (k = .overlap ∧ col = .blit) := by
  unfold tableFault at h
  split at h
  · simp_all
  · split at h
    · simp_all
    · split at h
      · rename_i h3
        simp_all
      · split at h
        · rename_i h4
          rcases h4.1 with hc | hc <;> simp_all
        · split at h
          · simp_all
          · simp at h

/-! ### exec -/

/-- The effect of a command whose checks pass. -/
def commandEffect : Instr → State → State
  | .convert => convertEffect
  | .encode => encodeEffect
  | .putpixel => putPixelEffect .replace
  | .putpixelAdd => putPixelEffect .add
  | .clear => clearEffect
  | .blit => blitCore .replace false
  | .blitKey => blitCore .key false
  | .blitAdd => blitCore .add false
  | .blitHflip => blitCore .replace true
  | .blitKeyHflip => blitCore .key true
  | .blitAddHflip => blitCore .add true
  | .sblit => scaledCore sblitRect
  | .srblit => scaledCore srblitRect

/-- Every command: ignored while faulted, else the fault of the first check that fails, else its effect (30_encoding.md rule
R81, 60_exceptions.md rules R192, R196). -/
theorem exec_eq (i : Instr) (s : State) :
    exec i s =
      if s.fault then .next s
      else
        match tableFault (checkColumn i) s with
        | some k => .next (raiseFault k (encode i) s)
        | none => .next (commandEffect i s) := by
  cases i <;> simp only [exec, execConvert, execEncode, execPutpixel, execPutpixelAdd, execClear, execBlit, execBlitKey,
    execBlitAdd, execBlitHflip, execBlitKeyHflip, execBlitAddHflip, execSblit, execSrblit, runCommand, convertChecks_eq,
    encodeChecks_eq, pixelChecks_eq, blitChecks_eq, checkColumn, commandEffect] <;> rfl

theorem exec_faulted (i : Instr) {s : State} (h : s.fault = true) : exec i s = .next s := by rw [exec_eq, if_pos h]

theorem exec_raises {i : Instr} {s : State} {k : FaultCode} (h : s.fault = false)
    (hk : tableFault (checkColumn i) s = some k) : exec i s = .next (raiseFault k (encode i) s) := by
  rw [exec_eq, if_neg (by simp [h]), hk]

theorem exec_ready {i : Instr} {s : State} (h : ready i s) : exec i s = .next (commandEffect i s) := by
  rw [exec_eq, if_neg (by simp [h.1]), h.2]

/-- The three things a command can do, and no other. -/
theorem exec_cases {i : Instr} {s t : State} (h : exec i s = .next t) :
    (s.fault = true ∧ t = s) ∨
      (s.fault = false ∧ ∃ k, tableFault (checkColumn i) s = some k ∧ t = raiseFault k (encode i) s) ∨
        (ready i s ∧ t = commandEffect i s) := by
  cases hf : s.fault with
  | true =>
    rw [exec_faulted i hf] at h
    exact .inl ⟨rfl, (Host.Outcome.next.inj h).symm⟩
  | false =>
    cases hk : tableFault (checkColumn i) s with
    | some k =>
      rw [exec_raises hf hk] at h
      exact .inr (.inl ⟨rfl, k, rfl, (Host.Outcome.next.inj h).symm⟩)
    | none =>
      rw [exec_ready ⟨hf, hk⟩] at h
      exact .inr (.inr ⟨⟨hf, hk⟩, (Host.Outcome.next.inj h).symm⟩)

/-- Every command answers a next state (00_scope.md rule R13). -/
theorem exec_next (i : Instr) (s : State) : ∃ t, exec i s = .next t := by
  rw [exec_eq]
  split
  · exact ⟨_, rfl⟩
  · split <;> exact ⟨_, rfl⟩

/-- An effect changes memory or PIXOUT and nothing else (10_state.md rule R49). -/
theorem commandEffect_frame (i : Instr) (s : State) :
    commandEffect i s = { s with mem := (commandEffect i s).mem, pixout := (commandEffect i s).pixout } := by
  cases i <;> simp only [commandEffect] <;> first | rfl | (unfold putPixelEffect; split <;> rfl)

/-- PIXOUT is written by CONVERT and ENCODE alone (10_state.md rule R41). -/
theorem commandEffect_pixout {i : Instr} (h1 : i ≠ .convert) (h2 : i ≠ .encode) (s : State) :
    (commandEffect i s).pixout = s.pixout := by
  cases i <;> simp_all [commandEffect]

/-! ### Decoding -/

theorem decode_encode (i : Instr) : decode (encode i) = .ok i := by cases i <;> decide

/-! ### The step -/

/-- A register write other than to CMD leaves memory, the parameters and the host alone. -/
theorem regWrite_frame (s : State) (v : Word) (r : Reg) :
    (regWrite s v r).mem = s.mem ∧ (regWrite s v r).cfg = s.cfg ∧ (regWrite s v r).host = s.host ∧
      (regWrite s v r).answers = s.answers := by
  cases r <;> simp only [regWrite] <;> (try split) <;> simp

/-- Only RESET changes the fault record (60_exceptions.md rule R195). -/
theorem regWrite_record (s : State) (v : Word) {r : Reg} (h : r ≠ .reset ∨ v.getLsbD 0 = false) :
    (regWrite s v r).fault = s.fault ∧ (regWrite s v r).err = s.err ∧ (regWrite s v r).fcmd = s.fcmd := by
  cases r <;> simp only [regWrite] <;> (try split) <;> simp_all

/-- The cases of a write to the port: a CMD write, or a register write, or nothing. -/
theorem portWrite_cases (o : Nat) (v : Word) (s : State) :
    (regAt o = some .cmd ∧ portWrite exec o v s = cmdWrite exec v s) ∨
      (regAt o = none ∧ portWrite exec o v s = .next s) ∨
        ∃ r, r ≠ .cmd ∧ regAt o = some r ∧ portWrite exec o v s = .next (regWrite s v r) := by
  unfold portWrite
  split
  · rename_i h
    exact .inr (.inl ⟨h, rfl⟩)
  · rename_i h
    exact .inl ⟨h, rfl⟩
  · rename_i r hne h
    exact .inr (.inr ⟨r, fun hc => hne hc, h, rfl⟩)

theorem cmdWrite_eq (cw : Word) (s : State) :
    cmdWrite exec cw s =
      if s.fault then .next s
      else
        match decode cw with
        | .error _ => .next (raiseFault .illegal cw s)
        | .ok i => exec i s := rfl

/-- The cases of a CMD write that answers a next state (30_encoding.md rules R81, R85). -/
theorem cmdWrite_cases {cw : Word} {s t : State} (h : cmdWrite exec cw s = .next t) :
    (s.fault = true ∧ t = s) ∨
      (s.fault = false ∧ (∃ r, decode cw = .error r) ∧ t = raiseFault .illegal cw s) ∨
        (s.fault = false ∧ ∃ i, decode cw = .ok i ∧ exec i s = .next t) := by
  rw [cmdWrite_eq] at h
  cases hf : s.fault with
  | true =>
    rw [hf, if_pos rfl] at h
    exact .inl ⟨rfl, (Host.Outcome.next.inj h).symm⟩
  | false =>
    rw [hf, if_neg (by simp)] at h
    split at h
    · rename_i r hr
      exact .inr (.inl ⟨rfl, ⟨r, hr⟩, (Host.Outcome.next.inj h).symm⟩)
    · rename_i i hi
      exact .inr (.inr ⟨rfl, i, hi, h⟩)

theorem cmdWrite_next (cw : Word) (s : State) : ∃ t, cmdWrite exec cw s = .next t := by
  rw [cmdWrite_eq]
  split
  · exact ⟨_, rfl⟩
  · split
    · exact ⟨_, rfl⟩
    · exact exec_next _ _

theorem step_idle {s : State} (h : s.host = []) : step s = .next s := by
  unfold step hostStep
  rw [h]

theorem step_action {s : State} {a : HostAction} {rest : List HostAction} (h : s.host = a :: rest) :
    step s = hostAction exec a { s with host := rest } := by
  unfold step hostStep
  rw [h]

theorem regAt_cmd : regAt 4 = some .cmd := by decide

/-- A step that writes CMD. -/
theorem step_cmd {s : State} {cw : Word} {rest : List HostAction} (h : s.host = .wr 1 cw :: rest) :
    step s = cmdWrite exec cw { s with host := rest } := by
  rw [step_action h, hostAction, portWrite, regAt_cmd]

/-- A step runs the decoded command. -/
theorem step_runs {s : State} {cw : Word} {i : Instr} {rest : List HostAction} (h : s.host = .wr 1 cw :: rest)
    (hf : s.fault = false) (hd : decode cw = .ok i) : step s = exec i { s with host := rest } := by
  rw [step_cmd h, cmdWrite_eq, if_neg (by simp [hf]), hd]

end Sys2Proof.Laws
end

