-- ==== Sys2Proof/Laws/PerInstr.lean ====
section
/-! SUPPORT. What is said of each instruction by itself, one lemma per constructor of Instr. -/

/-- The instruction is well formed, its word lies within the bits that rule R80 of 30_encoding.md gives the fields OPC, COMB
and HFLIP, and decoding that word gives the instruction back (rules R80, R84). -/
def Sys2Proof.Laws.RoundTrip.Statement (i : Sys2Proof.Instr) : Prop :=
  Sys2Proof.wellFormed i = true ∧ (Sys2Proof.encode i).toNat < 2 ^ 7 ∧ Sys2Proof.decode (Sys2Proof.encode i) = .ok i

theorem Sys2Proof.Laws.RoundTrip.convert : Sys2Proof.Laws.RoundTrip.Statement .convert :=
  ⟨by decide, by decide, Sys2Proof.Laws.decode_encode _⟩

theorem Sys2Proof.Laws.RoundTrip.encode : Sys2Proof.Laws.RoundTrip.Statement .encode :=
  ⟨by decide, by decide, Sys2Proof.Laws.decode_encode _⟩

theorem Sys2Proof.Laws.RoundTrip.putpixel : Sys2Proof.Laws.RoundTrip.Statement .putpixel :=
  ⟨by decide, by decide, Sys2Proof.Laws.decode_encode _⟩

theorem Sys2Proof.Laws.RoundTrip.putpixelAdd : Sys2Proof.Laws.RoundTrip.Statement .putpixelAdd :=
  ⟨by decide, by decide, Sys2Proof.Laws.decode_encode _⟩

theorem Sys2Proof.Laws.RoundTrip.clear : Sys2Proof.Laws.RoundTrip.Statement .clear :=
  ⟨by decide, by decide, Sys2Proof.Laws.decode_encode _⟩

theorem Sys2Proof.Laws.RoundTrip.blit : Sys2Proof.Laws.RoundTrip.Statement .blit :=
  ⟨by decide, by decide, Sys2Proof.Laws.decode_encode _⟩

theorem Sys2Proof.Laws.RoundTrip.blitKey : Sys2Proof.Laws.RoundTrip.Statement .blitKey :=
  ⟨by decide, by decide, Sys2Proof.Laws.decode_encode _⟩

theorem Sys2Proof.Laws.RoundTrip.blitAdd : Sys2Proof.Laws.RoundTrip.Statement .blitAdd :=
  ⟨by decide, by decide, Sys2Proof.Laws.decode_encode _⟩

theorem Sys2Proof.Laws.RoundTrip.blitHflip : Sys2Proof.Laws.RoundTrip.Statement .blitHflip :=
  ⟨by decide, by decide, Sys2Proof.Laws.decode_encode _⟩

theorem Sys2Proof.Laws.RoundTrip.blitKeyHflip : Sys2Proof.Laws.RoundTrip.Statement .blitKeyHflip :=
  ⟨by decide, by decide, Sys2Proof.Laws.decode_encode _⟩

theorem Sys2Proof.Laws.RoundTrip.blitAddHflip : Sys2Proof.Laws.RoundTrip.Statement .blitAddHflip :=
  ⟨by decide, by decide, Sys2Proof.Laws.decode_encode _⟩

theorem Sys2Proof.Laws.RoundTrip.sblit : Sys2Proof.Laws.RoundTrip.Statement .sblit :=
  ⟨by decide, by decide, Sys2Proof.Laws.decode_encode _⟩

theorem Sys2Proof.Laws.RoundTrip.srblit : Sys2Proof.Laws.RoundTrip.Statement .srblit :=
  ⟨by decide, by decide, Sys2Proof.Laws.decode_encode _⟩
end

