-- ==== Sys2Proof/Laws/Runs.lean ====
section
/-! SUPPORT. Laws of runs of host actions (30_encoding.md rules R90, R91; 70_reset_and_hazards.md rule R231): one step of a
run, a set-up of register writes, and the words the set-ups write. -/

namespace Sys2Proof.Laws

open Sys2Proof.Machine

/-! ### Offsets and words -/

/-- The register port finds each register at its offset (10_state.md rule R22). -/
theorem regAt_regOffset (r : Reg) : regAt (regOffset r) = some r := by
  have h1 : ∀ id, regAt (regOffset (.fmtBpp id)) = some (.fmtBpp id) := by decide
  have h2 : ∀ id, ∀ c ∈ [Chan.R, .G, .B, .A], regAt (regOffset (.fmtChan id c)) = some (.fmtChan id c) := by decide
  cases r with
  | fmtBpp id => exact h1 id
  | fmtChan id c => exact h2 id c (by cases c <;> simp)
  | _ => rfl

/-- "every offset is a multiple of 4" (10_state.md rule R22). -/
theorem regOffset_aligned (r : Reg) : 4 * (regOffset r / 4) = regOffset r := by
  cases r with
  | fmtBpp id => simp only [regOffset]; omega
  | fmtChan id c => cases c <;> simp only [regOffset] <;> omega
  | _ => rfl

theorem toNat_sizeWord (w h : BitVec 16) : (sizeWord w h).toNat = h.toNat * 2 ^ 16 + w.toNat := by
  have e : (sizeWord w h).toNat = h.toNat <<< 16 ||| w.toNat := BitVec.toNat_append ..
  rw [e, Nat.shiftLeft_eq, Nat.mul_comm, ← Nat.two_pow_add_eq_or_of_lt w.isLt]

theorem wordLow_sizeWord (w h : BitVec 16) : wordLow (sizeWord w h) = w := by
  apply BitVec.eq_of_toNat_eq
  have := w.isLt
  rw [wordLow, BitVec.extractLsb'_toNat, toNat_sizeWord, Nat.shiftRight_eq_div_pow]
  omega

theorem wordHigh_sizeWord (w h : BitVec 16) : wordHigh (sizeWord w h) = h := by
  apply BitVec.eq_of_toNat_eq
  have := w.isLt
  have := h.isLt
  rw [wordHigh, BitVec.extractLsb'_toNat, toNat_sizeWord, Nat.shiftRight_eq_div_pow]
  omega

theorem extractLsb'_fmt (id : BitVec 3) : (id.setWidth 32).extractLsb' 0 3 = id := by
  apply BitVec.eq_of_toNat_eq
  have := id.isLt
  simp only [BitVec.extractLsb'_toNat, BitVec.toNat_setWidth, Nat.shiftRight_zero]
  omega

/-! ### Runs -/

theorem run_next {k : Nat} {s t : State} (h : step s = .next t) :
    Host.Core.run Sys2Proof.core (k + 1) s = Host.Core.run Sys2Proof.core k t := by
  have h' : Sys2Proof.core.step s = .next t := h
  simp only [Host.Core.run, h']

/-- Register writes do not look at the host's list. -/
theorem regWrite_host (s : State) (v : Word) (r : Reg) (acts : List HostAction) :
    regWrite { s with host := acts } v r = { regWrite s v r with host := acts } := by
  cases r <;> simp only [regWrite] <;> first | rfl | (split <;> rfl)

/-- A run that begins with a register write. -/
theorem run_wrReg {k : Nat} {s : State} {r : Reg} {v : Word} {rest : List HostAction} (hr : r ≠ .cmd) :
    Host.Core.run Sys2Proof.core (k + 1) { s with host := wrReg r v :: rest } =
      Host.Core.run Sys2Proof.core k { regWrite s v r with host := rest } := by
  apply run_next
  rw [step_action rfl, ← regWrite_host]
  simp only [wrReg, hostAction, portWrite, regOffset_aligned, regAt_regOffset]

/-- A run that begins with a command. -/
theorem run_ofCommand {k : Nat} {s t : State} {i : Instr} {rest : List HostAction} (hf : s.fault = false)
    (ht : exec i { s with host := rest } = .next t) :
    Host.Core.run Sys2Proof.core (k + 1) { s with host := cmd i :: rest } = Host.Core.run Sys2Proof.core k t :=
  run_next ((step_runs (s := { s with host := cmd i :: rest }) rfl hf (decode_encode i)).trans ht)

/-- A set-up of register writes and then a command runs the command on the written registers. -/
theorem runHost_setup (l : List (Reg × Word)) (hl : ∀ p ∈ l, p.1 ≠ .cmd ∧ p.1 ≠ .reset) (i : Instr) (s : State)
    (hf : s.fault = false) :
    runHost (l.map (fun p => wrReg p.1 p.2) ++ [cmd i]) s =
      exec i { l.foldl (fun s p => regWrite s p.2 p.1) s with host := [] } := by
  unfold runHost
  induction l generalizing s with
  | nil =>
    obtain ⟨t, ht⟩ := exec_next i { s with host := [] }
    exact (run_ofCommand hf ht).trans ht.symm
  | cons p l ih =>
    rw [List.map_cons, List.cons_append, List.length_cons, run_wrReg (hl p (by simp)).1]
    exact ih (fun q hq => hl q (by simp [hq])) _ ((regWrite_record s p.2 (.inl (hl p (by simp)).2)).1.trans hf)

end Sys2Proof.Laws
end

