-- ==== Sys2Proof/Tests/Slice0.lean ====
section
/-! SUPPORT. Tests. Expected results come from spec/: the words of 30_encoding.md rule R84, the examples of the command
rules, and the vectors V1 to V11 of 95_test_vectors.md, each named at its test; and for every statement that has hypotheses
a state and operands that meet them all. -/

namespace Sys2Proof.Tests

open Sys2Proof.Machine

/-! ### Well-formedness: each check refuses an ill-formed term -/

theorem test_wf_refuses_zero_field : CmdFields.wf { opc := 5, comb := 0, hflip := 0, zero := 1 } = false := by decide
theorem test_wf_refuses_opcode_0 : CmdFields.wf { opc := 0, comb := 0, hflip := 0, zero := 0 } = false := by decide
theorem test_wf_refuses_opcode_8 : CmdFields.wf { opc := 8, comb := 0, hflip := 0, zero := 0 } = false := by decide
theorem test_wf_refuses_comb_3 : CmdFields.wf { opc := 5, comb := 3, hflip := 0, zero := 0 } = false := by decide
theorem test_wf_refuses_key_putpixel : CmdFields.wf { opc := 3, comb := 1, hflip := 0, zero := 0 } = false := by decide
theorem test_wf_refuses_flipped_putpixel : CmdFields.wf { opc := 3, comb := 2, hflip := 1, zero := 0 } = false := by decide
theorem test_wf_refuses_add_sblit : CmdFields.wf { opc := 6, comb := 2, hflip := 0, zero := 0 } = false := by decide
theorem test_wf_refuses_flipped_clear : CmdFields.wf { opc := 4, comb := 0, hflip := 1, zero := 0 } = false := by decide
theorem test_wf_refuses_no_bytes : (HostAction.mr 0 0).wf = false ∧ (HostAction.mw 0 0 0).wf = false := by decide
theorem test_wf_refuses_five_bytes : (HostAction.mr 0 5).wf = false ∧ (HostAction.mw 0 5 0).wf = false := by decide
theorem test_wf_refuses_past_top : (HostAction.mr 0xFFFFFFFE 3).wf = false ∧ (HostAction.mw 0xFFFFFFFE 3 0).wf = false := by
  decide
theorem test_wf_refuses_wide_value : (HostAction.mw 0 1 0x100).wf = false := by decide

/-! ### Decoding: OPC in bits 3:0, COMB in bits 5:4, HFLIP in bit 6 (30_encoding.md rules R80, R84) -/

theorem test_decode_convert : decode 0b0000000000000000000000000_0_00_0001 = .ok .convert := rfl
theorem test_decode_encode : decode 0b0000000000000000000000000_0_00_0010 = .ok .encode := rfl
theorem test_decode_putpixel : decode 0b0000000000000000000000000_0_00_0011 = .ok .putpixel := rfl
theorem test_decode_putpixelAdd : decode 0b0000000000000000000000000_0_10_0011 = .ok .putpixelAdd := rfl
theorem test_decode_clear : decode 0b0000000000000000000000000_0_00_0100 = .ok .clear := rfl
theorem test_decode_blit : decode 0b0000000000000000000000000_0_00_0101 = .ok .blit := rfl
theorem test_decode_blitKey : decode 0b0000000000000000000000000_0_01_0101 = .ok .blitKey := rfl
theorem test_decode_blitAdd : decode 0b0000000000000000000000000_0_10_0101 = .ok .blitAdd := rfl
theorem test_decode_blitHflip : decode 0b0000000000000000000000000_1_00_0101 = .ok .blitHflip := rfl
theorem test_decode_blitKeyHflip : decode 0b0000000000000000000000000_1_01_0101 = .ok .blitKeyHflip := rfl
theorem test_decode_blitAddHflip : decode 0b0000000000000000000000000_1_10_0101 = .ok .blitAddHflip := rfl
theorem test_decode_sblit : decode 0b0000000000000000000000000_0_00_0110 = .ok .sblit := rfl
theorem test_decode_srblit : decode 0b0000000000000000000000000_0_00_0111 = .ok .srblit := rfl
theorem test_decode_table_word : decodeTableWord 32 0x00000065 = some .blitAddHflip ∧ decodeTableWord 32 0x35 = none := by
  decide

/-- V10: reserved words. -/
theorem test_decode_reserved :
    decode 0x00000000 = .error .opcode ∧ decode 0x00000080 = .error .zeroField ∧ decode 0x00000035 = .error .modifiers ∧
      decode 0x00000016 = .error .modifiers ∧ decode 0x00000013 = .error .modifiers ∧
        decode 0x00000044 = .error .modifiers ∧ decode 0x0000000F = .error .opcode ∧
          decode 0x80000005 = .error .zeroField := ⟨rfl, rfl, rfl, rfl, rfl, rfl, rfl, rfl⟩

/-! ### Small states -/

/-- A descriptor. -/
def bmp (base w h fmt : Nat) : Desc :=
  { base := BitVec.ofNat 32 base, w := BitVec.ofNat 16 w, h := BitVec.ofNat 16 h, fmt := BitVec.ofNat 3 fmt }

/-- A signed register value (30_encoding.md rule R90). -/
def sgn (x : Int) : Word := BitVec.ofInt 32 x

/-- The reset state with a destination, a position, a colour and some destination bytes. -/
def drawState (d : Desc) (x y : Int) (color : Word) (bytes value : Nat) : State :=
  { State.reset with dst := d, dstX := sgn x, dstY := sgn y, color := color, mem := memWrite [] d.base.toNat bytes value }

/-- The reset state with a source and a destination, each with its bytes, and a position. -/
def blitState (r d : Desc) (x y : Int) (sbytes svalue dbytes dvalue : Nat) : State :=
  { State.reset with
    src := r, dst := d, dstX := sgn x, dstY := sgn y,
    mem := memWrite (memWrite [] r.base.toNat sbytes svalue) d.base.toNat dbytes dvalue }

/-- Something read off the state a command leaves, when it leaves one. -/
def after {α : Type} (i : Instr) (s : State) (f : State → α) : Option α :=
  match exec i s with
  | .next t => some (f t)
  | .fault _ => none
  | .refused _ => none

/-- `n` bytes of memory as one little-endian number. -/
def bytes (addr n : Nat) (s : State) : Nat := memRead s.mem addr n

/-! ### CONVERT and ENCODE -/

/-- V2: 31 widens to 0xF8, not to 0xFF. -/
theorem test_convert_zero_fills :
    after .convert { State.reset with src := bmp 0 0 0 1, dst := bmp 0 0 0 2, pixin := 0xDEADF800 } State.pixout =
      some 0x00F80000 := by decide

/-- V2: equal ids keep the bits above bpp (40_convert.md rule R109). -/
theorem test_convert_equal_ids :
    after .convert { State.reset with src := bmp 0 0 0 1, dst := bmp 0 0 0 1, pixin := 0xDEADBEEF } State.pixout =
      some 0xDEADBEEF := by decide

/-- V1. -/
theorem test_encode_rgb565 :
    after .encode { State.reset with dst := bmp 0 0 0 1, color := 0x12345678 } State.pixout = some 0x7AA6 := by decide

/-- V1: truncated, not rounded, and alpha at the top. -/
theorem test_encode_argb32 :
    after .encode { State.reset with dst := bmp 0 0 0 5, color := 0x80402010 } State.pixout = some 0x80102040 := by decide

/-- V3. -/
theorem test_rescale :
    rescale 251 8 6 = 62 ∧ rescale 255 8 10 = 1020 ∧ rescale 1023 10 8 = 255 ∧ rescale 255 8 0 = 0 ∧ rescale 31 5 8 = 248 := by
  decide

/-! ### PUTPIXEL, PUTPIXEL.ADD and CLEAR -/

/-- The example of 42_pixel_ops.md rule R140: 00 F8 at 0x1012, 0x1013. -/
theorem test_putpixel_address :
    after .putpixel (drawState (bmp 0x1000 4 4 1) 1 2 0x000000FF 0 0) (fun t => t.mem) =
      some [(0x1012, 0x00), (0x1013, 0xF8)] := by decide

/-- V9: X = DST.W and X = −1 write nothing and record nothing. -/
theorem test_putpixel_out_of_bounds :
    after .putpixel (drawState (bmp 0x1000 4 3 1) 4 0 0x000000FF 0 0) (fun t => (t.mem, t.fault)) = some ([], false) ∧
      after .putpixel (drawState (bmp 0x1000 4 3 1) (-1) 0 0x000000FF 0 0) (fun t => (t.mem, t.fault)) =
        some ([], false) := by decide

/-- The example of 42_pixel_ops.md rule R141: 0x8410 and grey clamp to 0xFFFF. -/
theorem test_putpixelAdd_clamps :
    after .putpixelAdd (drawState (bmp 0x1000 1 1 1) 0 0 0x00808080 2 0x8410) (bytes 0x1000 2) = some 0xFFFF := by decide

/-- V4: the destination's alpha is kept, the source's ignored. -/
theorem test_putpixelAdd_alpha :
    after .putpixelAdd (drawState (bmp 0x1000 1 1 5) 0 0 0x40D0E0F0 4 0x80102030) (bytes 0x1000 4) = some 0x80FFFFFF := by
  decide

/-- The example of 42_pixel_ops.md rule R142. -/
theorem test_clear_fills :
    after .clear (drawState (bmp 0x2000 2 2 1) 0 0 0x000000FF 9 0x110000000000000000) (bytes 0x2000 9) =
      some 0x11F800F800F800F800 := by decide

/-- CLEAR with COLOR = 0 writes zeros (42_pixel_ops.md rule R142). -/
theorem test_clear_zero :
    after .clear (drawState (bmp 0x2000 1 1 4) 5 (-5) 0 4 0xFFFFFFFF) (bytes 0x2000 4) = some 0 := by decide

/-! ### Blits -/

/-- The source's scenario (43_blit.md rule R155), first two rows of the 4×4 destination. -/
theorem test_blit_red :
    after .blit (blitState (bmp 0x100 2 2 1) (bmp 0x200 4 4 1) 0 0 8 0xF800F800F800F800 16 0) (bytes 0x200 16) =
      some 0x00000000F800F80000000000F800F800 := by decide

/-- V6, second row of X = −3: source columns 3 and 4 to destination columns 0 and 1. -/
theorem test_blit_negative_offset :
    after .blit (blitState (bmp 0x100 5 1 1) (bmp 0x200 4 1 1) (-3) 0 10 0x00050004000300020001 8 0x9999999999999999)
      (bytes 0x200 8) = some 0x9999999900050004 := by decide

/-- The example of 43_blit.md rule R156. -/
theorem test_blitKey_skips :
    after .blitKey (blitState (bmp 0x100 2 1 1) (bmp 0x200 2 1 1) 0 0 4 0x07E0F81F 4 0x22221111) (bytes 0x200 4) =
      some 0x07E01111 := by decide

/-- 41_combine.md rule R128: RGB24 0xF800F8 is not the key, though it converts as the key does. -/
theorem test_blitKey_tests_the_raw_pixel :
    after .blitKey (blitState (bmp 0x100 2 1 2) (bmp 0x200 2 1 1) 0 0 6 0xFF00FFF800F8 4 0x22221111) (bytes 0x200 4) =
      some 0x2222F81F := by decide

/-- The example of 43_blit.md rule R157. -/
theorem test_blitAdd_adds :
    after .blitAdd (blitState (bmp 0x100 1 1 1) (bmp 0x200 1 1 1) 0 0 2 0x7BEF 2 0x7BEF) (bytes 0x200 2) = some 0xF7DE := by
  decide

/-- V8: X = −1 writes p2, p1, p0. -/
theorem test_blitHflip_left_clip :
    after .blitHflip (blitState (bmp 0x100 4 1 1) (bmp 0x200 8 1 1) (-1) 0 8 0x0004000300020001 16 0) (bytes 0x200 16) =
      some 0x000100020003 := by decide

/-- V8: X = 6 writes p3, p2 to columns 6 and 7. -/
theorem test_blitHflip_right_clip :
    after .blitHflip (blitState (bmp 0x100 4 1 1) (bmp 0x200 8 1 1) 6 0 8 0x0004000300020001 16 0) (bytes 0x200 16) =
      some (0x00030004 * 2 ^ 96) := by decide

/-- The example of 43_blit.md rule R159. -/
theorem test_blitKeyHflip :
    after .blitKeyHflip (blitState (bmp 0x100 2 1 1) (bmp 0x200 2 1 1) 0 0 4 0x07E0F81F 4 0x22221111) (bytes 0x200 4) =
      some 0x222207E0 := by decide

/-- The example of 43_blit.md rule R160. -/
theorem test_blitAddHflip :
    after .blitAddHflip (blitState (bmp 0x100 2 1 1) (bmp 0x200 2 1 1) 0 0 4 0x00010800 4 0) (bytes 0x200 4) =
      some 0x08000001 := by decide

/-- V6: the clip of one axis, no wrap-around at the ends of the signed range. -/
theorem test_clip :
    clipAxis (-3) 8 4 = { src0 := 3, dst0 := 0, count := 4 } ∧ clipAxis 3 2 4 = { src0 := 0, dst0 := 3, count := 1 } ∧
      clipAxis (-2147483648) 2 4 = { src0 := 2147483648, dst0 := 0, count := -2147483646 } ∧
        clipAxis 2147483647 2 4 = { src0 := 0, dst0 := 2147483647, count := -2147483643 } := by decide

/-! ### The scaler -/

/-- V7. -/
theorem test_nearest :
    (List.range 5).map (fun i => nearest i 3 5) = [0, 0, 1, 1, 2] ∧ (List.range 3).map (fun i => nearest i 5 3) = [0, 1, 3] ∧
      nearest 1 65535 2 = 32767 ∧ nearest 65534 65535 65535 = 65534 := by decide

/-- The example of 44_scaler.md rule R175: p0, p0, p1, p1. -/
theorem test_sblit_enlarges :
    after .sblit
      { blitState (bmp 0x100 2 1 1) (bmp 0x200 4 1 1) 0 0 4 0x00020001 0 0 with dstRsize := { w := 4, h := 1 } }
      (bytes 0x200 8) = some 0x0002000200010001 := by decide

/-- The example of 44_scaler.md rule R175: 4×1 to two columns takes p0 and p2. -/
theorem test_sblit_reduces :
    after .sblit
      { blitState (bmp 0x100 4 1 1) (bmp 0x200 2 1 1) 0 0 8 0x0004000300020001 0 0 with dstRsize := { w := 2, h := 1 } }
      (bytes 0x200 4) = some 0x00030001 := by decide

/-- The example of 44_scaler.md rule R176: p1, p1, p2, p2. -/
theorem test_srblit_region :
    after .srblit
      { blitState (bmp 0x100 4 1 1) (bmp 0x200 4 1 1) 0 0 8 0x0004000300020001 0 0 with
        srcX := 1, srcRsize := { w := 2, h := 1 }, dstRsize := { w := 4, h := 1 } }
      (bytes 0x200 8) = some 0x0003000300020002 := by decide

/-- The example of 44_scaler.md rule R176: samples outside SRC leave their pixels unchanged. -/
theorem test_srblit_outside_source :
    after .srblit
      { blitState (bmp 0x100 4 1 1) (bmp 0x200 4 1 1) 0 0 8 0x0004000300020001 8 0x9999999999999999 with
        srcX := 3, srcRsize := { w := 2, h := 1 }, dstRsize := { w := 4, h := 1 } }
      (bytes 0x200 8) = some 0x9999999900040004 := by decide

/-! ### Faults (V10) and registers (V11) -/

/-- STATUS and FCMD after a blit between two 2×2 RGB565 bitmaps. -/
def blitStatus (r d : Desc) : Option (Word × Word) :=
  after .blit (blitState r d 0 0 0 0 0 0) (fun t => (portRead 0x00 t, portRead 0x0C t))

theorem test_fault_codes :
    blitStatus (bmp 0x100 0 2 1) (bmp 0x200 2 2 7) = some (0x21, 0x05) ∧
      blitStatus (bmp 0x100 0 2 1) (bmp 0x200 2 2 1) = some (0x31, 0x05) ∧
        blitStatus (bmp 0x100 2 2 1) (bmp 0x106 2 2 1) = some (0x41, 0x05) ∧
          blitStatus (bmp 0x100 2 2 1) (bmp 0x108 2 2 1) = some (0x00, 0x00) ∧
            blitStatus (bmp 0x100 2 2 1) (bmp 0xFFFFFFF9 2 2 1) = some (0x31, 0x05) ∧
              blitStatus (bmp 0x100 2 2 1) (bmp 0xFFFFFFF8 2 2 1) = some (0x00, 0x00) := by decide

/-- A field read off the state one step leaves, when it leaves one. -/
def afterStep {α : Type} (s : State) (f : State → α) : Option α :=
  match step s with
  | .next t => some (f t)
  | .fault _ => none
  | .refused _ => none

/-- V10: the reset state's CLEAR raises E_FORMAT; a reserved word raises E_ILLEGAL and is recorded. -/
theorem test_step_faults :
    afterStep (State.reset.withFetchWord 32 0x04) (fun t => (portRead 0x00 t, portRead 0x0C t)) = some (0x21, 0x04) ∧
      afterStep (State.reset.withFetchWord 32 0x80) (fun t => (portRead 0x00 t, portRead 0x0C t)) = some (0x11, 0x80) := by
  decide

theorem test_register_reads :
    portRead 0x124 State.reset = 0x0000050B ∧ portRead 0x128 State.reset = 0x00000605 ∧
      portRead 0x120 State.reset = 0x10 ∧ portRead 0x1E0 State.reset = 0 ∧ portRead 0x5C State.reset = 0x00FF00FF ∧
        portRead 0x1C State.reset = 0 ∧ portRead 0x114 State.reset = 0 ∧ portRead 0x200 State.reset = 0 := by decide

theorem test_register_masks :
    afterStep { State.reset with host := [.wr (0x18 / 4) 0xFFFFFFFF] } (portRead 0x18) = some 0x7 ∧
      afterStep { State.reset with host := [.wr (0x104 / 4) 0xFFFFFFFF] } (portRead 0x104) = some 0x3F1F ∧
        afterStep { State.reset with host := [.wr (0x100 / 4) 0x118] } (portRead 0x100) = some 0x18 ∧
          afterStep { State.reset with host := [.wr (0x120 / 4) 8] } (portRead 0x120) = some 0x10 := by decide

theorem test_host_read : -- 20_memory.md rule R63
    afterStep { State.reset with mem := [(0x10, 0x34), (0x11, 0x12), (0x12, 0x56)], host := [.mr 0x10 3] } State.answers =
      some [0x561234] := by
  decide

/-- A byte that nothing has written is the free power-up byte, before and after a reset (70_reset_and_hazards.md rules R220,
R222). -/
theorem test_power_up_is_free (a : Nat) :
    Memory.read State.reset.mem a = powerUpByte a ∧ Memory.read (resetRegs State.reset).mem a = powerUpByte a := ⟨rfl, rfl⟩

/-! ### Witnesses: for each statement with hypotheses, states and operands that meet them -/

/-- A blit at (x, y) between a 4×3 and a 5×4 RGB565 bitmap with their bytes, ready to run. -/
def readyAt (x y : Int) : State :=
  { blitState (bmp 0x100 4 3 1) (bmp 0x200 5 4 1) x y 4 0x12345678 4 0x9ABCDEF0 with
    dstRsize := { w := 4, h := 3 }, srcRsize := { w := 4, h := 3 }, color := 0x000000FF }

/-- The same machine about to do an action. -/
def doing (a : HostAction) : State := { readyAt 0 0 with host := [a] }

/-- The same with a fault on record. -/
def faulted (a : HostAction) : State := { doing a with fault := true, err := 4, fcmd := 0x05 }

/-- A format with channels wider than 8 bits: R (20, 10), G (10, 10), B (0, 10), A (30, 2). -/
def fmt10 : PixFmt := { bpp := 32, r := chan 20 10, g := chan 10 10, b := chan 0 10, a := chan 30 2 }

/-- A valid format with bits no channel covers. -/
def fmt8 : PixFmt := { bpp := 8, r := chan 0 2, g := chan 2 2, b := chan 0 0, a := chan 0 0 }

theorem witness_ReservedWords :
    (doing (.wr 1 0x80)).host = [.wr 1 0x80] ∧ (doing (.wr 1 0x80)).fault = false ∧ (∃ r, decode 0x80 = .error r) :=
  ⟨rfl, rfl, _, rfl⟩

/-- One word at a boundary of each clause of rule R85. -/
theorem witness_ReservedWords_clauses :
    (∃ r, decode 0x0 = .error r) ∧ (∃ r, decode 0x8 = .error r) ∧ (∃ r, decode 0x30 = .error r) ∧
      (∃ r, decode 0xFFFFFF85 = .error r) ∧ (∃ r, decode 0x41 = .error r) ∧ (∃ r, decode 0x27 = .error r) ∧
        (∃ r, decode 0x13 = .error r) ∧ (∃ r, decode 0x63 = .error r) ∧ ∃ i, decode 0x65 = .ok i :=
  ⟨⟨_, rfl⟩, ⟨_, rfl⟩, ⟨_, rfl⟩, ⟨_, rfl⟩, ⟨_, rfl⟩, ⟨_, rfl⟩, ⟨_, rfl⟩, ⟨_, rfl⟩, _, rfl⟩

theorem witness_DecodeAndEncodeAgree : wellFormed .blitAddHflip = true ∧ decode 0x65 = .ok .blitAddHflip :=
  ⟨by decide, rfl⟩

theorem witness_StepRuns :
    (doing (.wr 1 0x05)).host = .wr 1 0x05 :: [] ∧ (doing (.wr 1 0x05)).fault = false ∧ decode 0x05 = .ok .blit ∧
      wellFormed .blit = true ∧ 0x65 < 2 ^ 32 ∧ decode (BitVec.ofNat 32 0x65) = .ok .blitAddHflip :=
  ⟨rfl, rfl, rfl, by decide, by decide, rfl⟩

/-- For the CMD write and for exec alike. -/
theorem witness_FaultedEngine : (faulted (.wr 1 0x05)).host = .wr 1 0x05 :: [] ∧ (faulted (.wr 1 0x05)).fault = true := by
  decide

theorem witness_RegisterWrites :
    ((0x10, 0xFFFFFFFF) ∈ rwRegisters ∧ 0x10 = 4 * 4 ∧ (doing (.wr 4 7)).host = .wr 4 7 :: []) ∧
      ((0x110, 0x00003F1F) ∈ rwRegisters ∧ 0x110 = 4 * 68 ∧ (doing (.wr 68 7)).host = .wr 68 7 :: []) := by decide

theorem witness_ReadOnly :
    (4 * 0 ≠ 0x04 ∧ 4 * 0 ≠ 0x08 ∧ 4 * 0 ∉ rwRegisters.map Prod.fst ∧ (doing (.wr 0 7)).host = .wr 0 7 :: []) ∧
      (4 * 7 ≠ 0x04 ∧ 4 * 7 ≠ 0x08 ∧ 4 * 7 ∉ rwRegisters.map Prod.fst) ∧ 0x1C ∉ definedOffsets ∧
        0x114 ∉ definedOffsets ∧ 0x200 ∉ definedOffsets := by decide

theorem witness_RegisterReads : (doing (.rd 22)).host = .rd 22 :: [] := by decide

/-- Both ends of ERR, and the bits beside it (10_state.md rule R24). -/
theorem witness_StatusBits :
    (portRead 0x00 (faulted .resetInput)).getLsbD 0 = true ∧ (portRead 0x00 (faulted .resetInput)).getLsbD 6 = true ∧
      (1 ≤ 1 ∧ 1 ≤ 3) ∧ (1 ≤ 3 ∧ 3 ≤ 3) ∧ 8 ≤ 8 ∧ portRead 0x00 (faulted .resetInput) = 0x41 := by decide

/-- The last pixel of each bitmap. -/
theorem witness_OperandsAreRegisterFields :
    (3 < (readyAt 0 0).src.w.toNat ∧ 2 < (readyAt 0 0).src.h.toNat) ∧
      (4 < (readyAt 0 0).dst.w.toNat ∧ 3 < (readyAt 0 0).dst.h.toNat) := by decide

theorem witness_FormatTable :
    (Chan.A, 0x110) ∈ [(Chan.R, 0x104), (.G, 0x108), (.B, 0x10C), (.A, 0x110)] ∧ 0x1E0 ∈ slotOffsets 7 ∧
      0x1F0 ∈ slotOffsets 7 := by decide

theorem witness_KnownFormatIds :
    State.reset.native = zeroFmt ∧ configLegal State.reset.cfg = true ∧ (1 : BitVec 3) ≠ 0 ∧ (6 : BitVec 3) ≠ 7 := by
  decide

/-- Step 0, step 1, a failing check, and none. -/
theorem witness_FirstFailing :
    ((faulted (.wr 1 0x07)).host = .wr 1 0x07 :: [] ∧ (faulted (.wr 1 0x07)).fault = true) ∧
      ((doing (.wr 1 0x35)).host = .wr 1 0x35 :: [] ∧ (doing (.wr 1 0x35)).fault = false ∧ ∃ r, decode 0x35 = .error r) ∧
        ((State.reset.withFetchWord 32 0x07).host = .wr 1 0x07 :: [] ∧ (State.reset.withFetchWord 32 0x07).fault = false ∧
          decode 0x07 = .ok .srblit ∧
            tableFault (checkColumn .srblit) (State.reset.withFetchWord 32 0x07) = some .format) ∧
          ((doing (.wr 1 0x07)).host = .wr 1 0x07 :: [] ∧ (doing (.wr 1 0x07)).fault = false ∧
            tableFault (checkColumn .srblit) (doing (.wr 1 0x07)) = none) :=
  ⟨by decide, ⟨rfl, rfl, _, rfl⟩, ⟨rfl, rfl, rfl, by decide⟩, by decide⟩

/-- Each fault of the commands' checks is raised somewhere (60_exceptions.md rule R192, steps 2 to 6). -/
theorem witness_checks_fail :
    State.reset.fault = false ∧ tableFault .pixel State.reset = some .format ∧ tableFault .blit State.reset = some .format ∧
      tableFault .pixel (drawState (bmp 0x100 0 2 1) 0 0 0 0 0) = some .desc ∧
        tableFault .blit (blitState (bmp 0x100 2 2 1) (bmp 0xFFFFFFF9 2 2 1) 0 0 0 0 0 0) = some .desc ∧
          tableFault .blit (blitState (bmp 0x100 2 2 1) (bmp 0x106 2 2 1) 0 0 0 0 0 0) = some .overlap := by decide

theorem witness_FaultsArePrecise :
    State.reset.fault = false ∧ ∃ t, exec .clear State.reset = .next t ∧ t.fault = true := ⟨rfl, _, rfl, rfl⟩

theorem witness_OnlyAReset :
    (faulted (.wr 2 0xFFFFFFFE)).host = .wr 2 0xFFFFFFFE :: [] ∧ (faulted (.wr 2 0xFFFFFFFE)).fault = true ∧
      HostAction.wr 2 0xFFFFFFFE ≠ .resetInput ∧
        (∀ v : Word, HostAction.wr 2 0xFFFFFFFE = .wr 2 v → v.getLsbD 0 = false) ∧
          ∃ t, step (faulted (.wr 2 0xFFFFFFFE)) = .next t := by
  refine ⟨rfl, rfl, by decide, fun v h => ?_, _, rfl⟩
  cases h
  decide

theorem witness_ResetClears :
    (faulted .resetInput).host = .resetInput :: [] ∧
      ((faulted (.wr 2 0xFFFFFFFF)).host = .wr 2 0xFFFFFFFF :: [] ∧ (0xFFFFFFFF : Word).getLsbD 0 = true) ∧
        ((faulted (.wr 2 0xFFFFFFFE)).host = .wr 2 0xFFFFFFFE :: [] ∧ (0xFFFFFFFE : Word).getLsbD 0 = false) ∧
          (0x110 ≠ 0x5C ∧ ¬(0x120 ≤ 0x110 ∧ 0x110 < 0x1E0)) ∧ (0x1E0 ≠ 0x5C ∧ ¬(0x120 ≤ 0x1E0 ∧ 0x1E0 < 0x1E0)) ∧
            (0x120 ≤ 0x120 ∧ 0x120 < 0x1E0) ∧ (0x120 ≤ 0x1D0 ∧ 0x1D0 < 0x1E0) := by decide

theorem witness_FormatValidity : (readyAt 0 0).fault = false ∧ State.reset.fault = false := by decide

/-- A footprint that ends at 2^32 and one that passes it, a width of 0 and a height of 0. -/
theorem witness_DescriptorValidity :
    (∀ d ∈ [bmp 0xFFFFFFF8 2 2 1, bmp 0xFFFFFFF9 2 2 1, bmp 0x100 0 2 1, bmp 0x100 2 0 1],
      (drawState d 0 0 0 0 0).fault = false ∧ known (drawState d 0 0 0 0 0) d.fmt = true) := by decide

/-- Adjacent footprints and footprints that share two bytes. -/
theorem witness_SharedByte :
    ∀ d ∈ [bmp 0x108 2 2 1, bmp 0x106 2 2 1],
      checkColumn .blitKey = .blit ∧ (blitState (bmp 0x100 2 2 1) d 0 0 0 0 0 0).fault = false ∧
        known (blitState (bmp 0x100 2 2 1) d 0 0 0 0 0 0) 1 = true ∧
          validDesc (srcBitmap (blitState (bmp 0x100 2 2 1) d 0 0 0 0 0 0)) = true ∧
            validDesc (dstBitmap (blitState (bmp 0x100 2 2 1) d 0 0 0 0 0 0)) = true := by decide

theorem witness_CommandsChangeOnly :
    (∃ t, exec .blit (readyAt 0 0) = .next t ∧ t.fault = (readyAt 0 0).fault) ∧ Instr.blit ≠ .convert ∧
      Instr.blit ≠ .encode ∧ ∃ t, exec .convert (readyAt 0 0) = .next t := ⟨⟨_, rfl, rfl⟩, by decide, by decide, _, rfl⟩

/-- The bytes just below and just past the footprint. -/
theorem witness_WriteOnlyTheDst :
    (∃ t, exec .blit (readyAt 0 0) = .next t) ∧ ¬inFootprint (dstBitmap (readyAt 0 0)) 0x1FF ∧
      ¬inFootprint (dstBitmap (readyAt 0 0)) (0x200 + 40) ∧ ∃ t, exec .blit State.reset = .next t ∧ t.fault = true :=
  ⟨⟨_, rfl⟩, by unfold inFootprint; decide, by unfold inFootprint; decide, _, rfl, rfl⟩

/-- A memory that differs just past the destination. -/
theorem witness_ReadOnlyTheirFootprints :
    ∀ a, inFootprint (dstBitmap (readyAt 0 0)) a ∨
      (checkColumn .blitAdd = .blit ∧ inFootprint (srcBitmap (readyAt 0 0)) a) →
        Memory.read (Memory.write (readyAt 0 0).mem (0x200 + 40) 0x55) a = Memory.read (readyAt 0 0).mem a := by
  intro a h
  apply Laws.read_write_other
  rintro rfl
  revert h
  unfold inFootprint
  decide

theorem witness_Convert :
    ((readyAt 0 0).fault = false ∧ known (readyAt 0 0) (readyAt 0 0).src.fmt = true ∧
      known (readyAt 0 0) (readyAt 0 0).dst.fmt = true) ∧
      (State.reset.fault = false ∧ known State.reset State.reset.src.fmt = false) := by decide

theorem witness_Encode :
    ((readyAt 0 0).fault = false ∧ known (readyAt 0 0) (readyAt 0 0).dst.fmt = true) ∧
      (State.reset.fault = false ∧ known State.reset State.reset.dst.fmt = false) := by decide

theorem witness_RedEncodes :
    configLegal (readyAt 0 0).cfg = true ∧ (readyAt 0 0).fault = false ∧ (readyAt 0 0).dst.fmt = 1 ∧
      (readyAt 0 0).color = 0x000000FF := by decide

/-- The widths 0 and the two sides of equal widths. -/
theorem witness_Rescale : 7 < 8 ∧ 8 < 9 ∧ 255 < 2 ^ 8 ∧ 0 < 2 ^ 0 := by decide

theorem witness_EncodeIsTheSum : validFmt fmt10 = true ∧ validFmt fmt8 = true := by decide

/-- Valid formats, a bit of the result and a pixel that differs in bits no channel covers. -/
theorem witness_ConvertRescales :
    validFmt fmt8 = true ∧ validFmt fmt10 = true ∧ (∀ k, ¬(off fmt8 k ≤ 4 ∧ 4 < off fmt8 k + wid fmt8 k)) ∧
      (∀ k b, off fmt8 k ≤ b → b < off fmt8 k + wid fmt8 k → (0xF3).testBit b = (0x03).testBit b) ∧
        (1 : BitVec 3) ≠ 2 := by
  refine ⟨by decide, by decide, fun k => by cases k <;> decide, fun k b h1 h2 => ?_, by decide⟩
  have hb : b < 4 := by cases k <;> exact lt_of_lt_of_le h2 (by decide)
  have hall : ∀ c < 4, (0xF3).testBit c = (0x03).testBit c := by decide
  exact hall b hb

theorem witness_ConverterLaws :
    ((1 : BitVec 3) ≠ 5 ∧ known State.reset 1 = true ∧ known State.reset 5 = true ∧
      (∀ k, wid (fmtSlot State.reset 1) k ≤ wid (fmtSlot State.reset 5) k)) ∧
      (validFmt fmt8 = true ∧ validFmt fmt10 = true ∧ wid fmt8 .A = 0) := by
  refine ⟨⟨by decide, by decide, by decide, fun k => by cases k <;> decide⟩, by decide⟩

/-- Channels of 8 bits, of 10 bits, and a bit outside R, G and B. -/
theorem witness_AdditiveBlend :
    validFmt fmt10 = true ∧ 8 < wid fmt10 .R ∧ wid (fmtSlot State.reset 5) .G ≤ 8 ∧ validFmt (fmtSlot State.reset 5) = true ∧
      (∀ c, c ≠ .A → ¬(off fmt10 c ≤ 30 ∧ 30 < off fmt10 c + wid fmt10 c)) ∧ 0xFFFFFFFF < 2 ^ bpp fmt10 := by
  refine ⟨by decide, by decide, by decide, by decide, fun c => by cases c <;> decide, by decide⟩

/-- The last position within the bounds, with its address 0x226, and the first one past each edge. -/
theorem witness_PutPixel :
    (ready .putpixel (readyAt 4 3) ∧ dstPosX (readyAt 4 3) = (4 : Nat) ∧ dstPosY (readyAt 4 3) = (3 : Nat) ∧
      4 < (readyAt 4 3).dst.w.toNat ∧ 3 < (readyAt 4 3).dst.h.toNat ∧
        2 = bpp (fmtSlot (readyAt 4 3) (readyAt 4 3).dst.fmt) / 8 ∧
          0x226 = (readyAt 4 3).dst.base.toNat + (3 * (readyAt 4 3).dst.w.toNat + 4) * 2) ∧
      (ready .putpixel (readyAt (-1) 0) ∧ dstPosX (readyAt (-1) 0) < 0) ∧
        (ready .putpixel (readyAt 5 0) ∧ (readyAt 5 0).dst.w.toNat ≤ dstPosX (readyAt 5 0)) ∧
          (ready .putpixel (readyAt 0 (-1)) ∧ dstPosY (readyAt 0 (-1)) < 0) ∧
            (ready .putpixel (readyAt 0 4) ∧ (readyAt 0 4).dst.h.toNat ≤ dstPosY (readyAt 0 4)) := by
  unfold ready
  decide

/-- The same for PUTPIXEL.ADD; the pixel it reads is whatever number its bytes make. -/
theorem witness_PutPixelAdd :
    (ready .putpixelAdd (readyAt 4 3) ∧ dstPosX (readyAt 4 3) = (4 : Nat) ∧ dstPosY (readyAt 4 3) = (3 : Nat) ∧
      4 < (readyAt 4 3).dst.w.toNat ∧ 3 < (readyAt 4 3).dst.h.toNat ∧
        2 = bpp (fmtSlot (readyAt 4 3) (readyAt 4 3).dst.fmt) / 8 ∧
          0x226 = (readyAt 4 3).dst.base.toNat + (3 * (readyAt 4 3).dst.w.toNat + 4) * 2) ∧
      (ready .putpixelAdd (readyAt (-1) 0) ∧ dstPosX (readyAt (-1) 0) < 0) ∧
        (ready .putpixelAdd (readyAt 5 0) ∧ (readyAt 5 0).dst.w.toNat ≤ dstPosX (readyAt 5 0)) ∧
          (ready .putpixelAdd (readyAt 0 (-1)) ∧ dstPosY (readyAt 0 (-1)) < 0) ∧
            (ready .putpixelAdd (readyAt 0 4) ∧ (readyAt 0 4).dst.h.toNat ≤ dstPosY (readyAt 0 4)) := by
  unfold ready
  decide

theorem witness_Clear : ready .clear (readyAt 0 0) ∧ 4 < (readyAt 0 0).dst.w.toNat ∧ 3 < (readyAt 0 0).dst.h.toNat := by
  unfold ready
  decide

/-- Every form is ready; at (−1, 2) the destination pixel (0, 2) shows source (1, 0), mirrored (2, 0), and (3, 2) none. -/
theorem witness_Blit :
    (∀ f ∈ blitForms, ready f.1 (readyAt (-1) 2)) ∧ inSource (readyAt (-1) 2) (0 - dstPosX (readyAt (-1) 2)) (2 - dstPosY (readyAt (-1) 2)) ∧
      (1 : Int) = 0 - dstPosX (readyAt (-1) 2) ∧
        (2 : Int) = ((readyAt (-1) 2).src.w.toNat : Int) - 1 - (0 - dstPosX (readyAt (-1) 2)) ∧
          (0 : Int) = 2 - dstPosY (readyAt (-1) 2) ∧
            ¬inSource (readyAt (-1) 2) (3 - dstPosX (readyAt (-1) 2)) (2 - dstPosY (readyAt (-1) 2)) := by
  unfold ready inSource
  decide

theorem witness_ClipWindow :
    (2 : Int) < (clipX (readyAt (-1) 2)).count ∧ (1 : Int) < (clipY (readyAt (-1) 2)).count ∧
      (dstBitmap (readyAt 5 4)).w ≤ dstPosX (readyAt 5 4) ∧ (dstBitmap (readyAt 5 4)).h ≤ dstPosY (readyAt 5 4) ∧
        dstPosX (readyAt (-4) (-3)) ≤ -((srcBitmap (readyAt (-4) (-3))).w : Int) ∧
          dstPosY (readyAt (-4) (-3)) ≤ -((srcBitmap (readyAt (-4) (-3))).h : Int) := by decide

/-- The four edges at which the window becomes empty. -/
theorem witness_EmptyWindow :
    (∀ f ∈ blitForms, ready f.1 (readyAt 5 0) ∧ ready f.1 (readyAt (-4) 0) ∧ ready f.1 (readyAt 0 4) ∧
      ready f.1 (readyAt 0 (-3))) ∧
      (readyAt 5 0).dst.w.toNat ≤ dstPosX (readyAt 5 0) ∧ dstPosX (readyAt (-4) 0) ≤ -((readyAt (-4) 0).src.w.toNat : Int) ∧
        (readyAt 0 4).dst.h.toNat ≤ dstPosY (readyAt 0 4) ∧
          dstPosY (readyAt 0 (-3)) ≤ -((readyAt 0 (-3)).src.h.toNat : Int) := by
  unfold ready
  decide

/-- A masked blit at a destination pixel that holds the key. -/
def keyState : State := blitState (bmp 0x100 2 1 1) (bmp 0x200 2 1 1) 0 0 4 0x07E0F81F 4 0x2222F81F

theorem witness_KeyBlit :
    ∃ t, exec .blitKey keyState = .next t ∧ keyState.src.fmt = keyState.dst.fmt ∧ 0 < keyState.dst.w.toNat ∧
      0 < keyState.dst.h.toNat ∧
        pixRead t.mem (dstBitmap keyState) 0 0 =
          encodePixel (fmtSlot keyState keyState.src.fmt) keyState.cfg.colorkey.toNat :=
  ⟨_, rfl, by decide, by decide, by decide, by decide⟩

theorem witness_BlitCopies :
    (ready .blit (readyAt 0 0) ∧ (readyAt 0 0).src.fmt = (readyAt 0 0).dst.fmt ∧ dstPosX (readyAt 0 0) = 0 ∧
      dstPosY (readyAt 0 0) = 0 ∧ (readyAt 0 0).src.w.toNat ≤ (readyAt 0 0).dst.w.toNat ∧
        (readyAt 0 0).src.h.toNat ≤ (readyAt 0 0).dst.h.toNat) ∧
      (ready .blit (readyAt (-3) 0) ∧ (readyAt (-3) 0).src.fmt = (readyAt (-3) 0).dst.fmt ∧ dstPosX (readyAt (-3) 0) = -3 ∧
        dstPosY (readyAt (-3) 0) = 0 ∧ 0 + 3 < (readyAt (-3) 0).src.w.toNat) := by
  unfold ready
  decide

theorem witness_Nearest : 4 < 5 ∧ 1 ≤ 3 ∧ 0 < 5 ∧ 0 ≤ 4 := by decide

/-- A source rectangle whose columns 3 to 6 pass the right edge of the 4-column source. -/
def srblitPastSource : State := { readyAt 0 0 with srcX := 3 }

/-- The last pixel of the rectangle, one outside the rectangle, and one within it whose sample (5, 0) lies outside SRC. -/
theorem witness_Srblit :
    (ready .srblit (readyAt 1 1) ∧ (4 : Int) = dstPosX (readyAt 1 1) + (3 : Nat) ∧ (3 : Int) = dstPosY (readyAt 1 1) + (2 : Nat) ∧
      3 < (readyAt 1 1).dstRsize.w.toNat ∧ 2 < (readyAt 1 1).dstRsize.h.toNat ∧
        (3 : Int) = srcPosX (readyAt 1 1) + (3 * (readyAt 1 1).srcRsize.w.toNat / (readyAt 1 1).dstRsize.w.toNat : Nat) ∧
          0 < (readyAt 1 1).srcRsize.w.toNat ∧ 0 < (readyAt 1 1).srcRsize.h.toNat) ∧
      (¬∃ i j : Nat, ((0 : Nat) : Int) = dstPosX (readyAt 1 1) + i ∧ ((0 : Nat) : Int) = dstPosY (readyAt 1 1) + j) ∧
        ready .srblit srblitPastSource ∧
          ¬∃ i j : Nat, ((2 : Nat) : Int) = dstPosX srblitPastSource + i ∧ ((0 : Nat) : Int) = dstPosY srblitPastSource + j ∧
            i < srblitPastSource.dstRsize.w.toNat ∧ j < srblitPastSource.dstRsize.h.toNat ∧
            0 < srblitPastSource.srcRsize.w.toNat ∧ 0 < srblitPastSource.srcRsize.h.toNat ∧
            inSource srblitPastSource
              (srcPosX srblitPastSource + (i * srblitPastSource.srcRsize.w.toNat / srblitPastSource.dstRsize.w.toNat : Nat))
              (srcPosY srblitPastSource + (j * srblitPastSource.srcRsize.h.toNat / srblitPastSource.dstRsize.h.toNat : Nat)) := by
  refine ⟨by unfold ready; decide, ?_, by unfold ready; decide, ?_⟩
  · rintro ⟨i, j, h, _⟩
    have h1 : dstPosX (readyAt 1 1) = 1 := by decide
    rw [h1] at h
    omega
  · rintro ⟨i, j, h, h', -, -, -, -, hin⟩
    have h1 : dstPosX srblitPastSource = 0 := by decide
    have h2 : dstPosY srblitPastSource = 0 := by decide
    obtain rfl : i = 2 := by omega
    obtain rfl : j = 0 := by omega
    revert hin
    unfold inSource
    decide

/-- The last pixel of the rectangle and the first past each edge. -/
theorem witness_Sblit :
    ready .sblit (readyAt 1 1) ∧ (4 : Int) = dstPosX (readyAt 1 1) + (3 : Nat) ∧ (3 : Int) = dstPosY (readyAt 1 1) + (2 : Nat) ∧
      3 < (readyAt 1 1).dstRsize.w.toNat ∧ 2 < (readyAt 1 1).dstRsize.h.toNat ∧ (0 : Int) < dstPosX (readyAt 1 1) ∧
        (0 : Int) < dstPosY (readyAt 1 1) ∧ dstPosX (readyAt 0 0) + (readyAt 0 0).dstRsize.w.toNat ≤ 4 ∧
          dstPosY (readyAt 0 0) + (readyAt 0 0).dstRsize.h.toNat ≤ 3 := by
  unfold ready
  decide

theorem witness_SblitOfEqualSize :
    (readyAt (-1) 2).dstRsize.w = (readyAt (-1) 2).src.w ∧ (readyAt (-1) 2).dstRsize.h = (readyAt (-1) 2).src.h ∧
      ready .sblit (readyAt (-1) 2) := by
  unfold ready
  decide

theorem witness_SrblitOfTheWhole :
    (readyAt (-1) 2).srcX = 0 ∧ (readyAt (-1) 2).srcY = 0 ∧ (readyAt (-1) 2).srcRsize.w = (readyAt (-1) 2).src.w ∧
      (readyAt (-1) 2).srcRsize.h = (readyAt (-1) 2).src.h ∧ ready .srblit (readyAt (-1) 2) := by
  unfold ready
  decide

theorem witness_ZeroSize :
    (∀ d ∈ [Size.mk 0 3, .mk 4 0],
      ready .srblit { readyAt 0 0 with dstRsize := d } ∧ (d.w = 0 ∨ d.h = 0) ∧
        ready .srblit { readyAt 0 0 with srcRsize := d } ∧ ready .sblit { readyAt 0 0 with dstRsize := d }) := by
  unfold ready
  decide

/-- Four bytes that end exactly at 2^32, and the greatest value of one byte. -/
theorem witness_HostWrite :
    ((doing (.mw 0xFFFFFFFC 4 0x12345678)).host = .mw 0xFFFFFFFC 4 0x12345678 :: [] ∧ 1 ≤ 4 ∧ 4 ≤ 4 ∧
      (0xFFFFFFFC : Word).toNat + 4 ≤ 2 ^ 32 ∧ (0x12345678 : Word).toNat < 2 ^ (8 * 4)) ∧
      ((doing (.mw 0 1 0xFF)).host = .mw 0 1 0xFF :: [] ∧ (0 : Word).toNat + 1 ≤ 2 ^ 32 ∧
        (0xFF : Word).toNat < 2 ^ (8 * 1)) := by decide

/-- The least value one byte cannot hold. -/
theorem witness_HostWriteOfAWideValue :
    (doing (.mw 0xFFFFFFFF 1 0x100)).host = .mw 0xFFFFFFFF 1 0x100 :: [] ∧ 1 ≤ 1 ∧ 1 ≤ 4 ∧
      (0xFFFFFFFF : Word).toNat + 1 ≤ 2 ^ 32 ∧ 2 ^ (8 * 1) ≤ (0x100 : Word).toNat := by decide

theorem witness_HostRead :
    (doing (.mr 0xFFFFFFFC 4)).host = .mr 0xFFFFFFFC 4 :: [] ∧ 1 ≤ 4 ∧ 4 ≤ 4 ∧ (0xFFFFFFFC : Word).toNat + 4 ≤ 2 ^ 32 := by
  decide

/-- No bytes, five bytes, and four bytes that pass 2^32 by one. -/
theorem witness_UndefinedHostAccess :
    (doing (.mw 0 0 7)).host = .mw 0 0 7 :: [] ∧ (doing (.mr 0 5)).host = .mr 0 5 :: [] ∧ 4 < 5 ∧
      (doing (.mr 0xFFFFFFFD 4)).host = .mr 0xFFFFFFFD 4 :: [] ∧ 2 ^ 32 < (0xFFFFFFFD : Word).toNat + 4 := by decide

theorem witness_CanonicalMemory : Memory.wf [(0x10, 0x34), (0x11, 0x00), (0xFFFFFFFF, 0x12)] := by decide

theorem witness_DrawingCalls : (readyAt 0 0).fault = false ∧ State.reset.fault = false := by decide

theorem witness_ConverterCalls : State.reset.fault = false ∧ known State.reset 1 = true ∧ known State.reset 6 = true := by
  decide

/-- The invariant holds with no fault on record and with one, and each of these machines takes a step. -/
theorem witness_EveryStep :
    Invariant (doing (.wr 1 0x05)) ∧ (∃ t, step (doing (.wr 1 0x05)) = .next t) ∧ Invariant (faulted .resetInput) ∧
      ∃ t, step (faulted .resetInput) = .next t :=
  ⟨⟨by decide, rfl, rfl⟩, ⟨_, rfl⟩, ⟨by decide, .inr ⟨.blit, rfl, .inr (.inr ⟨rfl, rfl⟩)⟩⟩, _, rfl⟩

/-- Both ends of the constant slots. -/
theorem witness_NoStepChanges :
    (∃ t, step (doing (.wr 72 0)) = .next t) ∧ (0x120 ≤ 0x120 ∧ 0x120 < 0x200) ∧ (0x120 ≤ 0x1FC ∧ 0x1FC < 0x200) :=
  ⟨⟨_, rfl⟩, by decide, by decide⟩

theorem witness_EngineIsIdle : (readyAt 0 0).host = [] := by decide

end Sys2Proof.Tests
end

section
/-! SUPPORT. How many pixels a command visits (00_scope.md rule R13, 70_reset_and_hazards.md rule R230): the lengths of the
lists its meaning runs over, and the bound of one rectangle of two 16-bit sizes. -/

namespace Sys2Proof.Proofs

open Sys2Proof.Machine Sys2Proof.Laws

/-! ### Rectangles of 16-bit sizes -/

theorem size_area_le (w h : BitVec 16) : w.toNat * h.toNat ≤ 65535 * 65535 :=
  Nat.mul_le_mul (Nat.le_of_lt_succ w.isLt) (Nat.le_of_lt_succ h.isLt)

/-! ### The lists of visited pixels -/

theorem length_clearPixels (s : State) : (clearPixels s).length = s.dst.w.toNat * s.dst.h.toNat :=
  length_rectIndices _ _

theorem length_blitMoves (s : State) (hflip : Bool) :
    (blitMoves s hflip).length = (clipX s).count.toNat * (clipY s).count.toNat := by
  rw [blitMoves, List.length_map, length_rectIndices]

theorem length_scaledMoves_le (s : State) (r : ScaleRect) : (scaledMoves s r).length ≤ r.dw * r.dh := by
  unfold scaledMoves
  split
  · exact Nat.zero_le _
  · exact (List.length_filterMap_le _ _).trans_eq (length_rectIndices _ _)

theorem clipAxis_count_le (o : Int) (sn dn : Nat) : (clipAxis o sn dn).count.toNat ≤ dn := by
  simp only [clipAxis]
  omega

/-- A blit writes inside the destination, so its clip window is no larger (43_blit.md rule R152). -/
theorem clipWindow_le (s : State) :
    (clipX s).count.toNat * (clipY s).count.toNat ≤ s.dst.w.toNat * s.dst.h.toNat :=
  Nat.mul_le_mul (clipAxis_count_le _ _ _) (clipAxis_count_le _ _ _)

/-! ### The pixels of each kind of command -/

theorem pixelsVisited_convert {i : Instr} (h : i = .convert ∨ i = .encode) (s : State) : pixelsVisited i s = 0 := by
  rcases h with rfl | rfl <;> rfl

theorem pixelsVisited_putpixel_le {i : Instr} (h : i = .putpixel ∨ i = .putpixelAdd) (s : State) :
    pixelsVisited i s ≤ 1 := by
  rcases h with rfl | rfl <;> cases hb : pixelInBounds s <;> simp [pixelsVisited, hb]

theorem pixelsVisited_blit {i : Instr} (h : i ∈ blitForms.map Prod.fst) (s : State) :
    pixelsVisited i s = (clipX s).count.toNat * (clipY s).count.toNat := by
  simp only [blitForms, List.map_cons, List.map_nil, List.mem_cons, List.not_mem_nil, or_false] at h
  rcases h with rfl | rfl | rfl | rfl | rfl | rfl <;> exact length_blitMoves s _

theorem pixelsVisited_scaled_le {i : Instr} (h : i = .sblit ∨ i = .srblit) (s : State) :
    pixelsVisited i s ≤ s.dstRsize.w.toNat * s.dstRsize.h.toNat := by
  rcases h with rfl | rfl
  · exact length_scaledMoves_le s (sblitRect s)
  · exact length_scaledMoves_le s (srblitRect s)

/-- The five kinds of command by the pixels they visit. -/
theorem instr_kinds (i : Instr) :
    (i = .convert ∨ i = .encode) ∨ (i = .putpixel ∨ i = .putpixelAdd) ∨ i = .clear ∨
      i ∈ blitForms.map Prod.fst ∨ (i = .sblit ∨ i = .srblit) := by
  cases i <;> decide

theorem pixelsVisited_le (i : Instr) (s : State) : pixelsVisited i s ≤ 65535 * 65535 := by
  rcases instr_kinds i with h | h | rfl | h | h
  · exact (pixelsVisited_convert h s).trans_le (by decide)
  · exact (pixelsVisited_putpixel_le h s).trans (by decide)
  · exact (length_clearPixels s).trans_le (size_area_le _ _)
  · exact (pixelsVisited_blit h s).trans_le ((clipWindow_le s).trans (size_area_le _ _))
  · exact (pixelsVisited_scaled_le h s).trans (size_area_le _ _)

/-- Settles O57: every command answers, and each kind of command runs over one rectangle of two 16-bit sizes at most. -/
theorem everyCommandTerminates : Obligations.EveryCommandTerminates := by
  intro i s
  refine ⟨exec_next i s, pixelsVisited_le i s, (pixelsVisited_convert · s), (pixelsVisited_putpixel_le · s), ?_, ?_,
    (pixelsVisited_scaled_le · s)⟩
  · rintro rfl
    exact length_clearPixels s
  · intro h
    rw [pixelsVisited_blit h, Nat.cast_mul, Int.ofNat_toNat, Int.ofNat_toNat, max_comm, max_comm (clipY s).count]

end Sys2Proof.Proofs
end

section
/-! SUPPORT. The register port (10_state.md rules R22 to R27, R41, R42): which register stands at an offset, what a write
leaves in the register it names and in every other, and the steps that read or write a register. -/

namespace Sys2Proof.Proofs

open Sys2Proof.Machine Sys2Proof.Laws

/-! ### Offsets -/

/-- The port finds a register at its own offset and at no other (10_state.md rule R22). -/
theorem regAt_eq_some_iff {o : Nat} {r : Reg} : regAt o = some r ↔ o = regOffset r := by
  refine ⟨fun h => ?_, fun h => h ▸ regAt_regOffset r⟩
  unfold regAt at h
  split at h
  · unfold slotReg at h
    split at h <;> simp only [Option.some.injEq, reduceCtorEq] at h <;> subst h <;>
      simp only [regOffset, BitVec.toNat_ofNat] <;> omega
  · obtain ⟨l₁, l₂, hmap, -⟩ := List.lookup_eq_some_iff.mp h
    have hoff : ∀ p ∈ regMap, p.1 = regOffset p.2 := by decide
    exact hoff (o, r) (by simp [hmap])

@[simp] theorem portRead_regOffset (r : Reg) (s : State) : portRead (regOffset r) s = regRead s r := by
  rw [portRead, regAt_regOffset]

/-- What an offset reads depends on the register there, if there is one. -/
theorem portRead_congr {o : Nat} {s t : State} (h : ∀ r, o = regOffset r → regRead t r = regRead s r) :
    portRead o t = portRead o s := by
  unfold portRead
  split
  · rfl
  · rename_i r hr
    exact h r (regAt_eq_some_iff.mp hr)

theorem regOffset_mem_definedOffsets (r : Reg) : regOffset r ∈ definedOffsets := by
  have hbpp : ∀ id, regOffset (.fmtBpp id) ∈ definedOffsets := by decide
  have hchan : ∀ id, ∀ c ∈ channels, regOffset (.fmtChan id c) ∈ definedOffsets := by decide
  cases r with
  | fmtBpp id => exact hbpp id
  | fmtChan id c => exact hchan id c (by cases c <;> decide)
  | _ => decide

/-- An offset that the register map does not define reads 0 (10_state.md rule R23). -/
theorem portRead_undefined {o : Nat} (h : o ∉ definedOffsets) (s : State) : portRead o s = 0 := by
  unfold portRead
  split
  · rfl
  · rename_i r hr
    exact absurd (regAt_eq_some_iff.mp hr ▸ regOffset_mem_definedOffsets r) h

/-! ### What a slot and a register read depend on -/

/-- A slot depends on the parameters, and slot 0 on the NATIVE registers (10_state.md rule R33). -/
theorem fmtSlot_congr {s t : State} {id : BitVec 3} (hc : t.cfg = s.cfg) (hn : id = 0 → t.native = s.native) :
    fmtSlot t id = fmtSlot s id := by
  by_cases hid : id = 0
  · subst hid
    exact hn rfl
  · have : id.toNat ≠ 0 := fun h => hid (BitVec.eq_of_toNat_eq h)
    unfold fmtSlot
    rw [hc]
    split
    · contradiction
    all_goals rfl

theorem regRead_host (s : State) (acts : List HostAction) (r : Reg) : regRead { s with host := acts } r = regRead s r := by
  cases r <;> rfl

/-! ### Fields of a written word -/

theorem sizeWord_wordLow_wordHigh (v : Word) : sizeWord (wordLow v) (wordHigh v) = v := by
  apply BitVec.eq_of_toNat_eq
  have := v.isLt
  rw [toNat_sizeWord, wordLow, wordHigh, BitVec.extractLsb'_toNat, BitVec.extractLsb'_toNat, Nat.shiftRight_eq_div_pow,
    Nat.shiftRight_zero]
  omega

/-- The lowest n bits of a word, as a mask keeps them. -/
theorem setWidth_extractLsb' (v : Word) (n : Nat) :
    (v.extractLsb' 0 n).setWidth 32 = v &&& BitVec.ofNat 32 (2 ^ n - 1) := by
  apply BitVec.eq_of_getLsbD_eq
  intro k hk
  rw [BitVec.getLsbD_setWidth, BitVec.getLsbD_extractLsb', BitVec.getLsbD_and, BitVec.getLsbD_ofNat,
    Nat.testBit_two_pow_sub_one, Bool.and_comm (v.getLsbD k), Nat.zero_add, Bool.and_assoc]

/-- OFF stands in bits 4:0 and WID in bits 13:8 (10_state.md rule R22). -/
theorem getLsbD_chanWord (f : ChanField) (k : Nat) :
    (chanWord f).getLsbD k = if k < 8 then f.off.getLsbD k else f.wid.getLsbD (k - 8) := by
  have hoff : f.off.toNat < 2 ^ 8 := f.off.isLt.trans (by decide)
  rw [chanWord, BitVec.getLsbD_ofNat, Nat.add_comm, Nat.mul_comm, Nat.testBit_two_pow_mul_add _ hoff]
  by_cases hk : k < 32
  · simp [hk, BitVec.testBit_toNat]
  · simp [hk, BitVec.getLsbD_of_ge f.wid (k - 8) (by omega), show ¬k < 8 by omega]

theorem getLsbD_chanWordMask :
    ∀ k < 32, (0x00003F1F : Word).getLsbD k = if k < 8 then decide (k < 5) else decide (k - 8 < 6) := by decide

theorem chanWord_wordChan (v : Word) : chanWord (wordChan v) = v &&& 0x00003F1F := by
  apply BitVec.eq_of_getLsbD_eq
  intro k hk
  rw [getLsbD_chanWord, BitVec.getLsbD_and, getLsbD_chanWordMask k hk, Bool.and_comm]
  by_cases h8 : k < 8
  · simp [wordChan, h8]
  · simp [wordChan, h8, Nat.add_sub_cancel' (Nat.not_lt.mp h8)]

/-! ### The NATIVE slot -/

theorem chanField_bpp (f : PixFmt) (b : BitVec 6) (c : Chan) : chanField { f with bpp := b } c = chanField f c := by
  cases c <;> rfl

theorem bpp_setChan (f : PixFmt) (c : Chan) (x : ChanField) : (setChan f c x).bpp = f.bpp := by cases c <;> rfl

theorem chanField_setChan_same (f : PixFmt) (c : Chan) (x : ChanField) : chanField (setChan f c x) c = x := by
  cases c <;> rfl

theorem chanField_setChan_other (f : PixFmt) {c c' : Chan} (h : c' ≠ c) (x : ChanField) :
    chanField (setChan f c x) c' = chanField f c' := by
  cases c <;> cases c' <;> (try contradiction) <;> rfl

/-- Replacing the NATIVE slot changes the reads of its registers that differ, and no other. -/
theorem regRead_native (s : State) {f : PixFmt} {r : Reg} (hbpp : r = .fmtBpp 0 → f.bpp = s.native.bpp)
    (hchan : ∀ c, r = .fmtChan 0 c → chanField f c = chanField s.native c) :
    regRead { s with native := f } r = regRead s r := by
  have hslot : ∀ id, id ≠ 0 → fmtSlot { s with native := f } id = fmtSlot s id := fun id hid =>
    fmtSlot_congr rfl (absurd · hid)
  cases r with
  | fmtBpp id =>
    by_cases hid : id = 0
    · subst hid
      exact congrArg (BitVec.setWidth 32) (hbpp rfl)
    · rw [regRead, regRead, hslot id hid]
  | fmtChan id c =>
    by_cases hid : id = 0
    · subst hid
      exact congrArg chanWord (hchan c rfl)
    · rw [regRead, regRead, hslot id hid]
  | _ => rfl

/-! ### A register write, read back -/

/-- The RW registers with the bits that hold their fields: `rwRegisters` by name. -/
def rwRegs : List (Reg × Word) :=
  [(.srcBase, 0xFFFFFFFF), (.srcSize, 0xFFFFFFFF), (.srcFmt, 0x7), (.dstBase, 0xFFFFFFFF), (.dstSize, 0xFFFFFFFF),
    (.dstFmt, 0x7), (.dstX, 0xFFFFFFFF), (.dstY, 0xFFFFFFFF), (.dstRsize, 0xFFFFFFFF), (.srcX, 0xFFFFFFFF),
    (.srcY, 0xFFFFFFFF), (.srcRsize, 0xFFFFFFFF), (.color, 0xFFFFFFFF), (.pixin, 0xFFFFFFFF), (.fmtBpp 0, 0x3F),
    (.fmtChan 0 .R, 0x3F1F), (.fmtChan 0 .G, 0x3F1F), (.fmtChan 0 .B, 0x3F1F), (.fmtChan 0 .A, 0x3F1F)]

theorem rwRegisters_eq : rwRegisters = rwRegs.map fun p => (regOffset p.1, p.2) := rfl

theorem rwRegs_ne {r : Reg} {mask : Word} (h : (r, mask) ∈ rwRegs) : r ≠ .cmd ∧ r ≠ .reset := by
  have hall : ∀ p ∈ rwRegs, p.1 ≠ .cmd ∧ p.1 ≠ .reset := by decide
  exact hall _ h

/-- A written RW register reads as the word masked to its fields (10_state.md rule R23). -/
theorem regRead_regWrite_same {r : Reg} {mask : Word} (h : (r, mask) ∈ rwRegs) (s : State) (v : Word) :
    regRead (regWrite s v r) r = v &&& mask := by
  have hword : v = v &&& 0xFFFFFFFF := (BitVec.and_allOnes (x := v)).symm
  have hsize : sizeWord (wordLow v) (wordHigh v) = v &&& 0xFFFFFFFF := (sizeWord_wordLow_wordHigh v).trans hword
  have hchan : ∀ c, regRead (regWrite s v (.fmtChan 0 c)) (.fmtChan 0 c) = v &&& 0x3F1F := fun c =>
    (congrArg chanWord (chanField_setChan_same s.native c (wordChan v))).trans (chanWord_wordChan v)
  have hall : ∀ p ∈ rwRegs, regRead (regWrite s v p.1) p.1 = v &&& p.2 := by
    simp only [rwRegs, List.forall_mem_cons]
    exact ⟨hword, hsize, setWidth_extractLsb' v 3, hword, hsize, setWidth_extractLsb' v 3, hword, hword, hsize, hword, hword,
      hsize, hword, hword, setWidth_extractLsb' v 6, hchan .R, hchan .G, hchan .B, hchan .A, nofun⟩
  exact hall _ h

/-- A register write changes what no other register reads, unless it is a reset (10_state.md rule R23). -/
theorem regRead_regWrite_other {r r' : Reg} (hr : r ≠ .reset) (hne : r' ≠ r) (s : State) (v : Word) :
    regRead (regWrite s v r) r' = regRead s r' := by
  cases r with
  | reset => contradiction
  | fmtBpp id =>
    rw [regWrite]
    split
    · subst id
      exact regRead_native s (absurd · hne) fun c _ => chanField_bpp _ _ c
    · rfl
  | fmtChan id c =>
    rw [regWrite]
    split
    · subst id
      refine regRead_native s (fun _ => bpp_setChan _ _ _) fun c' hc' => chanField_setChan_other _ ?_ _
      rintro rfl
      exact hne hc'
    · rfl
  | _ => cases r' <;> (try contradiction) <;> rfl

/-- A register that is not RW, CMD or RESET ignores writes (10_state.md rule R23). -/
theorem regWrite_readOnly {r : Reg} (hr : r ≠ .reset) (h : regOffset r ∉ rwRegisters.map Prod.fst) (s : State)
    (v : Word) : regWrite s v r = s := by
  cases r with
  | status => rfl
  | cmd => rfl
  | reset => contradiction
  | fcmd => rfl
  | pixout => rfl
  | key => rfl
  | fmtBpp id =>
    rw [regWrite, if_neg]
    rintro rfl
    exact h (by decide)
  | fmtChan id c =>
    rw [regWrite, if_neg]
    rintro rfl
    exact h (by cases c <;> decide)
  | _ => exact absurd (by decide) h

/-! ### Steps that write or read a register -/

theorem portWrite_regOffset {r : Reg} (hr : r ≠ .cmd) (s : State) (v : Word) :
    portWrite exec (regOffset r) v s = .next (regWrite s v r) := by
  rcases portWrite_cases (regOffset r) v s with ⟨h, -⟩ | ⟨h, -⟩ | ⟨r', -, h, he⟩ <;> rw [regAt_regOffset] at h
  · exact absurd (Option.some.inj h) hr
  · contradiction
  · rw [he, Option.some.inj h]

/-- Settles O7: by name, the written register reads its fields back and every other register reads as before. -/
theorem registerWritesReadBackMasked : Obligations.RegisterWritesReadBackMasked := by
  intro s v idx o mask rest hrw ho hhost
  rw [rwRegisters_eq, List.mem_map] at hrw
  obtain ⟨⟨r, mask'⟩, hr, hp⟩ := hrw
  obtain ⟨rfl, rfl⟩ := Prod.mk.inj hp
  obtain ⟨hcmd, hreset⟩ := rwRegs_ne hr
  obtain ⟨hmem, hcfg, hrest, hans⟩ := regWrite_frame { s with host := rest } v r
  refine ⟨regWrite { s with host := rest } v r, ?_, ?_, fun o' ho' => portRead_congr fun r' hr' => ?_, hmem, hcfg, hrest,
    hans⟩
  · rw [step_action hhost, hostAction, ← ho, portWrite_regOffset hcmd]
  · rw [portRead_regOffset, regRead_regWrite_same hr]
  · have hne : r' ≠ r := by
      rintro rfl
      exact ho' hr'
    rw [regRead_regWrite_other hreset hne, regRead_host]

/-- Settles O8: a register outside the RW map, CMD and RESET ignores its write, and an undefined offset names no
register. -/
theorem readOnlyAndUndefinedOffsets : Obligations.ReadOnlyAndUndefinedOffsets := by
  refine ⟨fun s v idx rest hcmd hreset hrw hhost => ?_, fun s o h => portRead_undefined h s⟩
  rw [step_action hhost, hostAction]
  rcases portWrite_cases (4 * idx) v { s with host := rest } with ⟨h, -⟩ | ⟨-, he⟩ | ⟨r, -, h, he⟩
  · exact absurd (regAt_eq_some_iff.mp h) hcmd
  · exact he
  · have ho := regAt_eq_some_iff.mp h
    have hr : r ≠ .reset := by
      rintro rfl
      exact hreset ho
    rw [he, regWrite_readOnly hr (ho ▸ hrw)]

/-- Settles O9: a read appends its answer, and the five registers read by their definition. -/
theorem registerReadsHaveNoSideEffect : Obligations.RegisterReadsHaveNoSideEffect := by
  refine ⟨fun s idx rest hhost => ?_, fun s => ⟨rfl, rfl, rfl, rfl, rfl⟩⟩
  have hread : portRead (4 * idx) { s with host := rest } = portRead (4 * idx) s :=
    portRead_congr fun r _ => regRead_host s rest r
  rw [step_action hhost, hostAction, hread, answer]

/-! ### STATUS -/

/-- FAULT stands in bit 0 and ERR in bits 7:4 (10_state.md rule R24). -/
theorem getLsbD_statusWord (s : State) (k : Nat) :
    (statusWord s).getLsbD k = if k < 4 then decide (k = 0) && s.fault else s.err.getLsbD (k - 4) := by
  have hfault : s.fault.toNat < 2 ^ 4 := (Bool.toNat_lt s.fault).trans (by decide)
  rw [statusWord, BitVec.getLsbD_ofNat, Nat.add_comm, Nat.mul_comm, Nat.testBit_two_pow_mul_add _ hfault,
    Nat.testBit_bool_toNat]
  by_cases hk : k < 32
  · simp [hk, BitVec.testBit_toNat]
  · simp [hk, BitVec.getLsbD_of_ge s.err (k - 4) (by omega), show ¬k < 4 by omega]

/-- Settles O10: from the bits of STATUS. -/
theorem statusBits : Obligations.StatusBits := by
  intro s
  have hread : portRead 0x00 s = statusWord s := rfl
  have hfault : (portRead 0x00 s).getLsbD 0 = s.fault := by
    rw [hread, getLsbD_statusWord, if_pos (by decide), decide_eq_true rfl, Bool.true_and]
  refine ⟨hfault, hfault.symm, fun k _ => ?_, fun k hk => ?_⟩
  · rw [hread, getLsbD_statusWord, if_neg (by omega), Nat.add_sub_cancel_left]
  · rw [hread, getLsbD_statusWord]
    rcases hk with hk | hk
    · rw [if_pos (by omega), decide_eq_false (by omega), Bool.false_and]
    · rw [if_neg (by omega), BitVec.getLsbD_of_ge _ _ (by omega)]

end Sys2Proof.Proofs
end

section
/-! SUPPORT. The format table (10_state.md rules R30 to R35), what a command can change (rule R49), and the checks of
60_exceptions.md rule R192 as the commands show them. -/

namespace Sys2Proof.Proofs

open Sys2Proof.Machine Sys2Proof.Laws

/-! ### The format table -/

theorem toNat_chanWord (f : ChanField) : (chanWord f).toNat = f.off.toNat + f.wid.toNat * 2 ^ 8 := by
  have := f.off.isLt
  have := f.wid.isLt
  rw [chanWord, BitVec.toNat_ofNat, Nat.mod_eq_of_lt (by omega)]

theorem toNat_regRead_fmtBpp (s : State) (id : BitVec 3) : (regRead s (.fmtBpp id)).toNat = bpp (fmtSlot s id) :=
  BitVec.toNat_setWidth_of_le (by decide)

theorem off_wid_eq_regRead (s : State) (id : BitVec 3) (c : Chan) :
    off (fmtSlot s id) c = (regRead s (.fmtChan id c)).toNat % 2 ^ 5 ∧
      wid (fmtSlot s id) c = (regRead s (.fmtChan id c)).toNat / 2 ^ 8 := by
  have := (chanField (fmtSlot s id) c).off.isLt
  rw [regRead, toNat_chanWord, off, wid]
  omega

/-- Slot 7 reads 0 (10_state.md rule R35). -/
theorem regRead_slotSeven (s : State) : regRead s (.fmtBpp 7) = 0 ∧ ∀ c, regRead s (.fmtChan 7 c) = 0 := by
  have hchan : ∀ c, chanWord (chanField zeroFmt c) = 0 := fun c => by cases c <;> decide
  exact ⟨rfl, hchan⟩

/-- Settles O12: the port finds the five registers of a slot at its offsets. -/
theorem formatTableIsItsRegisters : Obligations.FormatTableIsItsRegisters := by
  intro s id
  refine ⟨?_, fun ck hck => ?_, fun o ho => ?_, rfl⟩
  · exact ((congrArg BitVec.toNat (portRead_regOffset (.fmtBpp id) s)).trans (toNat_regRead_fmtBpp s id)).symm
  · have hoff : ck.2 + 0x20 * id.toNat = regOffset (.fmtChan id ck.1) := by
      simp only [List.mem_cons, List.not_mem_nil, or_false] at hck
      rcases hck with rfl | rfl | rfl | rfl <;> rfl
    rw [hoff, portRead_regOffset]
    exact off_wid_eq_regRead s id ck.1
  · simp only [slotOffsets, List.mem_cons, List.not_mem_nil, or_false] at ho
    obtain ⟨hbpp, hchan⟩ := regRead_slotSeven s
    rcases ho with rfl | rfl | rfl | rfl | rfl
    · exact (portRead_regOffset (.fmtBpp 7) s).trans hbpp
    · exact (portRead_regOffset (.fmtChan 7 .R) s).trans (hchan .R)
    · exact (portRead_regOffset (.fmtChan 7 .G) s).trans (hchan .G)
    · exact (portRead_regOffset (.fmtChan 7 .B) s).trans (hchan .B)
    · exact (portRead_regOffset (.fmtChan 7 .A) s).trans (hchan .A)

/-- `BUILTIN_FMT` holds valid descriptors alone (00_scope.md rule R6). -/
theorem known_builtin {s : State} (h : configLegal s.cfg = true) {id : BitVec 3} (h0 : id ≠ 0) (h7 : id ≠ 7) :
    known s id = true := by
  have hid : id ∈ [1, 2, 3, 4, 5, 6] := by
    revert id
    decide
  simp only [configLegal, Bool.and_eq_true] at h
  obtain ⟨⟨⟨⟨⟨⟨⟨⟨⟨⟨⟨⟨⟨h1, h2⟩, h3⟩, h4⟩, h5⟩, h6⟩, -⟩, -⟩, -⟩, -⟩, -⟩, -⟩, -⟩, -⟩ := h
  simp only [List.mem_cons, List.not_mem_nil, or_false] at hid
  rcases hid with rfl | rfl | rfl | rfl | rfl | rfl
  · exact h1
  · exact h2
  · exact h3
  · exact h4
  · exact h5
  · exact h6

theorem validFmt_zeroFmt : validFmt zeroFmt = false := by decide

/-- Settles O13: the zero descriptor is invalid and the constraints of the parameters make theirs valid. -/
theorem knownFormatIds : Obligations.KnownFormatIds := by
  intro s
  refine ⟨validFmt_zeroFmt, fun h => ?_, fun h id => known_builtin h⟩
  exact (congrArg validFmt h).trans validFmt_zeroFmt

/-! ### What a command can change -/

/-- A command leaves every register but STATUS, FCMD and PIXOUT as it is (10_state.md rule R49). -/
theorem exec_frame {i : Instr} {s t : State} (h : exec i s = .next t) :
    t = { s with fault := t.fault, err := t.err, fcmd := t.fcmd, mem := t.mem, pixout := t.pixout } := by
  rcases exec_cases h with ⟨-, rfl⟩ | ⟨-, k, -, rfl⟩ | ⟨-, rfl⟩
  · rfl
  · rfl
  · rw [commandEffect_frame]

theorem commandEffect_record (i : Instr) (s : State) :
    (commandEffect i s).fault = s.fault ∧ (commandEffect i s).err = s.err ∧ (commandEffect i s).fcmd = s.fcmd := by
  rw [commandEffect_frame]
  exact ⟨rfl, rfl, rfl⟩

theorem commandEffect_mem {i : Instr} (h : i = .convert ∨ i = .encode) (s : State) : (commandEffect i s).mem = s.mem := by
  rcases h with rfl | rfl <;> rfl

/-- Settles O22: the frame, and PIXOUT, memory and the fault record in each of the three things a command can do. -/
theorem commandsChangeOnlyTheirResults : Obligations.CommandsChangeOnlyTheirResults := by
  intro i s t h
  refine ⟨?_, ?_⟩
  · rw [exec_frame h]
    simp only [and_self]
  · rcases exec_cases h with ⟨-, rfl⟩ | ⟨hf, k, -, rfl⟩ | ⟨-, rfl⟩
    · exact ⟨fun _ _ => rfl, fun _ => rfl, fun _ => ⟨rfl, rfl⟩⟩
    · exact ⟨fun _ _ => rfl, fun _ => rfl, fun hsame => absurd (hsame.trans hf) (by simp)⟩
    · exact ⟨fun h1 h2 => commandEffect_pixout h1 h2 s, fun hi => commandEffect_mem hi s,
        fun _ => (commandEffect_record i s).2⟩

/-! ### The checks, as the commands show them -/

theorem code_injective {j k : FaultCode} (h : j.code = k.code) : j = k := by
  revert h
  cases j <;> cases k <;> decide

/-- A command records the fault of the first check that fails, and no other (60_exceptions.md rule R192). -/
theorem exec_records_iff {i : Instr} {s : State} (hf : s.fault = false) (k : FaultCode) :
    (∃ t, exec i s = .next t ∧ t.fault = true ∧ t.err = k.code) ↔ tableFault (checkColumn i) s = some k := by
  constructor
  · rintro ⟨t, h, hft, herr⟩
    rcases exec_cases h with ⟨hf', -⟩ | ⟨-, j, hj, rfl⟩ | ⟨-, rfl⟩
    · rw [hf] at hf'
      contradiction
    · rw [hj, code_injective herr]
    · rw [(commandEffect_record i s).1, hf] at hft
      contradiction
  · exact fun h => ⟨_, exec_raises hf h, rfl, rfl⟩

theorem tableFault_encode_iff (s : State) : tableFault .encode s = some .format ↔ ¬known s s.dst.fmt = true := by
  cases h : known s s.dst.fmt <;> simp [tableFault, h]

theorem tableFault_pixel_iff {s : State} (h : known s s.dst.fmt = true) :
    tableFault .pixel s = some .desc ↔ ¬validDesc (dstBitmap s) = true := by
  cases hv : validDesc (dstBitmap s) <;> simp [tableFault, h, hv]

/-- Two bit ranges are apart, or one is empty, when no bit lies in both. -/
theorem ranges_apart_iff (o w o' w' : Nat) :
    (w = 0 ∨ w' = 0 ∨ o + w ≤ o' ∨ o' + w' ≤ o) ↔ ∀ b, ¬((o ≤ b ∧ b < o + w) ∧ o' ≤ b ∧ b < o' + w') := by
  refine ⟨fun h b => by omega, fun h => ?_⟩
  have := h (max o o')
  omega

theorem eq_zero_or_iff (n : Nat) (p : Prop) : (n = 0 ∨ p) ↔ (0 < n → p) := by
  rw [Nat.pos_iff_ne_zero, or_iff_not_imp_left]

/-- Settles O19: ENCODE makes the one check that DST.FMT is known, and validity bit by bit is validity by ranges. -/
theorem formatValidityDecidesFormatFault : Obligations.FormatValidityDecidesFormatFault := by
  intro s hf
  have hrecords := exec_records_iff (i := .encode) hf .format
  rw [checkColumn, tableFault_encode_iff, known, validFmt_iff] at hrecords
  simp only [ranges_apart_iff] at hrecords
  simp only [eq_zero_or_iff] at hrecords
  refine hrecords.trans (not_congr ?_)
  exact and_congr_right fun _ => and_congr_right fun _ => forall₂_congr fun c d => forall_comm

/-- Settles O20: with the format known, a pixel command's one check left is `valid_desc`. -/
theorem descriptorValidityDecidesDescFault : Obligations.DescriptorValidityDecidesDescFault := by
  intro s hf hk
  have hw : s.dst.w = 0 ↔ s.dst.w.toNat = 0 := BitVec.toNat_eq.trans (by simp)
  have hh : s.dst.h = 0 ↔ s.dst.h.toNat = 0 := BitVec.toNat_eq.trans (by simp)
  have hrecords := exec_records_iff (i := .clear) hf .desc
  rw [checkColumn, tableFault_pixel_iff hk, validDesc_iff] at hrecords
  refine hrecords.trans ?_
  rw [hw, hh]
  simp only [dstBitmap, bitmapOf, memsize, pixBytes]
  omega

/-! ### Canonical red in slot 1 -/

/-- Full red truncates to 31 in a field of width 5 and the other channels are 0 (40_convert.md rule R104). -/
theorem encodePixel_red {f : PixFmt} (ho : off f .R = 11) (hw : wid f .R = 5) : encodePixel f 0xFF = 0xF800 := by
  have hred : chanPut f .R (rescale (canonical 0xFF .R) 8 (wid f .R)) = 0xF800 := by
    rw [chanPut, ho, hw]
    decide
  have hzero : ∀ k, canonical 0xFF k = 0 → chanPut f k (rescale (canonical 0xFF k) 8 (wid f k)) = 0 := by
    intro k hk
    simp [hk, rescale, chanPut]
  rw [encodePixel, orChannels, hred, hzero .G (by decide), hzero .B (by decide), hzero .A (by decide)]
  decide

theorem slotOne_red {c : Config} (h : configLegal c = true) : off c.rgb565 .R = 11 ∧ wid c.rgb565 .R = 5 := by
  simp only [configLegal, Bool.and_eq_true, beq_iff_eq] at h
  obtain ⟨⟨-, hoff⟩, hwid⟩ := h
  exact ⟨hoff, hwid⟩

/-- Settles O27: slot 1 is known, so ENCODE completes, with the red field at offset 11 and width 5. -/
theorem redEncodesToF800InSlotOne : Obligations.RedEncodesToF800InSlotOne := by
  intro s hcfg hf hfmt hcolor
  have hk : known s s.dst.fmt = true := known_builtin hcfg (by rw [hfmt]; decide) (by rw [hfmt]; decide)
  have hready : ready .encode s := ⟨hf, by simp [checkColumn, tableFault, hk]⟩
  obtain ⟨ho, hw⟩ := slotOne_red hcfg
  have hslot : fmtSlot s s.dst.fmt = s.cfg.rgb565 := by rw [hfmt]; rfl
  have hred : encodePixel s.cfg.rgb565 (0x000000FF : Word).toNat = 0xF800 := encodePixel_red ho hw
  rw [exec_ready hready, commandEffect, encodeEffect, hslot, hcolor, hred]
  rfl

end Sys2Proof.Proofs
end

section
/-! SUPPORT. What every step leaves unchanged and when a step stops (10_state.md rules R20, R23, R47, R48; 20_memory.md rule
R78). -/

namespace Sys2Proof.Proofs

open Sys2Proof.Machine Sys2Proof.Laws

/-! ### The parameters -/

theorem cmdWrite_cfg {cw : Word} {s t : State} (h : cmdWrite exec cw s = .next t) : t.cfg = s.cfg := by
  rcases cmdWrite_cases h with ⟨-, rfl⟩ | ⟨-, -, rfl⟩ | ⟨-, i, -, hi⟩
  · rfl
  · rfl
  · rw [exec_frame hi]

theorem portWrite_cfg {o : Nat} {v : Word} {s t : State} (h : portWrite exec o v s = .next t) : t.cfg = s.cfg := by
  rcases portWrite_cases o v s with ⟨-, he⟩ | ⟨-, he⟩ | ⟨r, -, -, he⟩ <;> rw [he] at h
  · exact cmdWrite_cfg h
  · rw [Host.Outcome.next.inj h]
  · rw [← Host.Outcome.next.inj h]
    exact (regWrite_frame s v r).2.1

theorem hostAction_cfg {a : HostAction} {s t : State} (h : hostAction exec a s = .next t) : t.cfg = s.cfg := by
  cases a with
  | wr idx v => exact portWrite_cfg h
  | rd idx => rw [← Host.Outcome.next.inj h, answer_cfg]
  | mw addr n v =>
    rw [hostAction] at h
    split at h
    · contradiction
    · rw [← Host.Outcome.next.inj h]
  | mr addr n =>
    rw [hostAction] at h
    split at h
    · contradiction
    · rw [← Host.Outcome.next.inj h, answer_cfg]
  | resetInput => rw [← Host.Outcome.next.inj h, resetRegs_cfg]

/-- No step changes the OPEN parameters (10_state.md rule R20). -/
theorem step_cfg {s t : State} (h : step s = .next t) : t.cfg = s.cfg := by
  cases hhost : s.host with
  | nil =>
    rw [step_idle hhost] at h
    rw [Host.Outcome.next.inj h]
  | cons a rest =>
    rw [step_action hhost] at h
    exact hostAction_cfg (s := { s with host := rest }) h

/-- The registers at the constant offsets are KEY and those of slots 1 to 7 (10_state.md rule R22). -/
theorem regRead_constant {s t : State} (hcfg : t.cfg = s.cfg) {r : Reg}
    (hr : regOffset r = 0x5C ∨ (0x120 ≤ regOffset r ∧ regOffset r < 0x200)) : regRead t r = regRead s r := by
  cases r with
  | key => exact congrArg Config.colorkey hcfg
  | fmtBpp id =>
    have hid : id ≠ 0 := by
      rintro rfl
      exact absurd hr (by decide)
    rw [regRead, regRead, fmtSlot_congr hcfg (absurd · hid)]
  | fmtChan id c =>
    have hid : id ≠ 0 := by
      rintro rfl
      exact absurd hr (by cases c <;> decide)
    rw [regRead, regRead, fmtSlot_congr hcfg (absurd · hid)]
  | _ => exact absurd hr (by decide)

/-- Settles O55: every step keeps the parameters, and a constant register reads them alone. -/
theorem noStepChangesTheParameters : Obligations.NoStepChangesTheParameters := by
  intro s t h
  refine ⟨step_cfg h, fun o ho => portRead_congr ?_⟩
  rintro r rfl
  exact regRead_constant (step_cfg h) ho

/-! ### Progress -/

theorem portWrite_next (o : Nat) (v : Word) (s : State) : ∃ t, portWrite exec o v s = .next t := by
  rcases portWrite_cases o v s with ⟨-, he⟩ | ⟨-, he⟩ | ⟨r, -, -, he⟩ <;> rw [he]
  · exact cmdWrite_next v s
  · exact ⟨_, rfl⟩
  · exact ⟨_, rfl⟩

theorem accessStop_some {addr n : Nat} {f : Fault} (h : accessStop addr n = some f) :
    n = 0 ∨ 4 < n ∨ 2 ^ 32 < addr + n := by
  unfold accessStop at h
  split at h
  · omega
  · split at h
    · omega
    · contradiction

/-- A host action answers a next state or is a memory access that stops. -/
theorem hostAction_next_or_stops (a : HostAction) (s : State) :
    (∃ t, hostAction exec a s = .next t) ∨
      ∃ (addr v : Word) (n : Nat) (f : Fault), (a = .mw addr n v ∨ a = .mr addr n) ∧
        (n = 0 ∨ 4 < n ∨ 2 ^ 32 < addr.toNat + n) ∧ hostAction exec a s = .fault f := by
  cases a with
  | wr idx v => exact .inl (portWrite_next (4 * idx) v s)
  | rd idx => exact .inl ⟨_, rfl⟩
  | mw addr n v =>
    rw [hostAction]
    cases hs : accessStop addr.toNat n with
    | none => exact .inl ⟨_, rfl⟩
    | some f => exact .inr ⟨addr, v, n, f, .inl rfl, accessStop_some hs, rfl⟩
  | mr addr n =>
    rw [hostAction]
    cases hs : accessStop addr.toNat n with
    | none => exact .inl ⟨_, rfl⟩
    | some f => exact .inr ⟨addr, 0, n, f, .inr rfl, accessStop_some hs, rfl⟩
  | resetInput => exact .inl ⟨_, rfl⟩

/-- Settles O58: an idle step answers, and a host action answers or is an undefined access. -/
theorem onlyUndefinedHostAccessesStop : Obligations.OnlyUndefinedHostAccessesStop := by
  intro s
  cases hhost : s.host with
  | nil => exact .inl ⟨s, step_idle hhost⟩
  | cons a rest =>
    rw [step_action hhost]
    rcases hostAction_next_or_stops a { s with host := rest } with h | ⟨addr, v, n, f, ha, hn, he⟩
    · exact .inl h
    · refine .inr ⟨addr, v, n, rest, f, ?_, hn, he⟩
      rcases ha with rfl | rfl
      · exact .inl rfl
      · exact .inr rfl

/-! ### Reset and idleness -/

/-- Settles O53: reset memory lists no byte and no fault is recorded. -/
theorem invariantHoldsAtReset : Obligations.InvariantHoldsAtReset := ⟨wf_nil, rfl, rfl⟩

/-- Settles O56. -/
theorem engineIsIdleWithoutAHostAction : Obligations.EngineIsIdleWithoutAHostAction := fun _ => step_idle

end Sys2Proof.Proofs
end

section
/-! SUPPORT. Pixel memory as the host sees it (20_memory.md rules R61 to R66): the canonical form, the host's own accesses, and
the operands of the commands as register fields and bytes (10_state.md rules R28, R29, R36 to R38). -/

namespace Sys2Proof.Proofs

open Sys2Proof.Machine Sys2Proof.Laws

/-! ### The canonical form -/

/-- A canonical memory lists exactly the cells it finds. -/
theorem mem_iff_lookup {m : Memory} (h : m.Pairwise fun c d => c.1 < d.1) {c : Host.Cell} :
    c ∈ m ↔ Memory.lookup m c.1 = some c.2 := by
  refine ⟨lookup_of_mem h, fun hc => ?_⟩
  clear h
  induction m with
  | nil => contradiction
  | cons d rest ih =>
    rw [Memory.lookup] at hc
    split at hc
    · rename_i ha
      exact List.mem_cons.mpr (.inl (Prod.ext ha.symm (Option.some.inj hc).symm))
    · exact List.mem_cons_of_mem d (ih hc)

/-- Settles O50: a strictly rising list is determined by its cells, and its cells by what it finds. -/
theorem canonicalMemoryIsDeterminedByItsBytes : Obligations.CanonicalMemoryIsDeterminedByItsBytes := by
  rintro m m' ⟨hm, -⟩ ⟨hm', -⟩ hlookup
  have hirr : Std.Irrefl fun c d : Host.Cell => c.1 < d.1 := ⟨fun c => lt_irrefl c.1⟩
  have hanti : Std.Antisymm fun c d : Host.Cell => c.1 < d.1 := ⟨fun _ _ h h' => absurd h' h.asymm⟩
  refine hm.eq_of_mem_iff hm' fun c => ?_
  rw [mem_iff_lookup hm, mem_iff_lookup hm', hlookup]

/-! ### The host's accesses -/

theorem accessStop_none_iff {addr n : Nat} : accessStop addr n = none ↔ 1 ≤ n ∧ n ≤ 4 ∧ addr + n ≤ 2 ^ 32 := by
  unfold accessStop
  split
  · simp only [reduceCtorEq, false_iff]
    omega
  · split
    · simp only [reduceCtorEq, false_iff]
      omega
    · simp only [true_iff]
      omega

/-- A host write that the access rules admit (20_memory.md rule R64). -/
theorem step_mw {s : State} {addr v : Word} {n : Nat} {rest : List HostAction} (h : s.host = .mw addr n v :: rest)
    (hstop : accessStop addr.toNat n = none) :
    step s = .next { s with host := rest, mem := memWrite s.mem addr.toNat n v.toNat } := by
  rw [step_action h, hostAction, hstop]

/-- A host read that the access rules admit (20_memory.md rule R63). -/
theorem step_mr {s : State} {addr : Word} {n : Nat} {rest : List HostAction} (h : s.host = .mr addr n :: rest)
    (hstop : accessStop addr.toNat n = none) :
    step s = .next { s with
      host := rest, answers := s.answers ++ [BitVec.ofNat 32 (memRead s.mem addr.toNat n)] } := by
  rw [step_action h, hostAction, hstop, answer]

/-- A host access that the access rules do not admit stops by name (log 6). -/
theorem step_accessStop {s : State} {addr v : Word} {n : Nat} {rest : List HostAction} {f : Fault}
    (h : s.host = .mw addr n v :: rest ∨ s.host = .mr addr n :: rest) (hstop : accessStop addr.toNat n = some f) :
    step s = .fault f := by
  rcases h with h | h <;> rw [step_action h, hostAction, hstop]

/-- Byte k of a word (20_memory.md rule R62). -/
theorem ofNat_div_eq_extractLsb' (v : Word) (k : Nat) :
    BitVec.ofNat 8 (v.toNat / 256 ^ k) = v.extractLsb' (8 * k) 8 := by
  apply BitVec.eq_of_toNat_eq
  rw [BitVec.toNat_ofNat, BitVec.extractLsb'_toNat, Nat.shiftRight_eq_div_pow, pow_mul, show 2 ^ 8 = 256 from rfl]

/-- What a host write stores, whether or not the value fits its width (20_memory.md rule R64; log 10). -/
theorem step_mw_stores_bytes {s : State} {addr v : Word} {n : Nat} {rest : List HostAction}
    (h : s.host = .mw addr n v :: rest) (h1 : 1 ≤ n) (h4 : n ≤ 4) (htop : addr.toNat + n ≤ 2 ^ 32) :
    ∃ t, step s = .next t ∧ t = { s with host := rest, mem := t.mem } ∧
      (∀ k < n, Memory.read t.mem (addr.toNat + k) = v.extractLsb' (8 * k) 8) ∧
      ∀ a, (a < addr.toNat ∨ addr.toNat + n ≤ a) → Memory.read t.mem a = Memory.read s.mem a := by
  refine ⟨_, step_mw h (accessStop_none_iff.mpr ⟨h1, h4, htop⟩), rfl, fun k hk => ?_, fun a => read_memWrite_outside _ _⟩
  rw [read_memWrite, if_pos (by omega), Nat.add_sub_cancel_left, ofNat_div_eq_extractLsb']

/-- Settles O47: the bytes of a write of any value. -/
theorem hostWriteIsLittleEndian : Obligations.HostWriteIsLittleEndian :=
  fun _ _ _ _ _ h h1 h4 htop _ => step_mw_stores_bytes h h1 h4 htop

/-- Settles O60: the bytes of a write of any value. -/
theorem hostWriteOfAWideValueStoresItsLowBytes : Obligations.HostWriteOfAWideValueStoresItsLowBytes :=
  fun _ _ _ _ _ h h1 h4 htop _ => step_mw_stores_bytes h h1 h4 htop

/-- Settles O48: the answer is `MemRead`, which 4 bytes keep below 2^32. -/
theorem hostReadIsLittleEndian : Obligations.HostReadIsLittleEndian := by
  intro s addr n rest h h1 h4 htop
  refine ⟨_, step_mr h (accessStop_none_iff.mpr ⟨h1, h4, htop⟩), ?_⟩
  have hlt : memRead s.mem addr.toNat n < 2 ^ 32 :=
    (memRead_lt s.mem addr.toNat n).trans_le (Nat.pow_le_pow_right (by decide) h4)
  rw [BitVec.toNat_ofNat, Nat.mod_eq_of_lt hlt, memRead_eq_sum]

/-- Settles O49: the width decides first, then the top of the address space. -/
theorem undefinedHostAccessStops : Obligations.UndefinedHostAccessStops := by
  refine ⟨fun s addr v n rest h hn => step_accessStop h ?_, fun s addr v n rest h h1 h4 htop => step_accessStop h ?_⟩
  · rw [accessStop, if_pos hn]
  · rw [accessStop, if_neg (by omega), if_pos htop]

/-! ### Operands -/

/-- `signed32` is two's complement (00_scope.md rule R8). -/
theorem signed32_eq_toInt (v : Word) : signed32 v = v.toInt := by
  rw [BitVec.toInt_eq_toNat_cond, signed32]
  split <;> split <;> omega

/-- The fields W and H of a size register (10_state.md rule R22). -/
theorem toNat_eq_sizeWord (w h : BitVec 16) :
    w.toNat = (sizeWord w h).toNat % 2 ^ 16 ∧ h.toNat = (sizeWord w h).toNat / 2 ^ 16 := by
  have := w.isLt
  rw [toNat_sizeWord]
  omega

theorem toNat_fmtWord (id : BitVec 3) : id.toNat = (id.setWidth 32).toNat :=
  (BitVec.toNat_setWidth_of_le (by decide)).symm

/-- A pixel read as the sum of its bytes (20_memory.md rules R63, R66). -/
theorem pixRead_eq_sum (m : Memory) (d : Bitmap) (x y : Nat) :
    pixRead m d x y = ∑ k ∈ Finset.range (pixBytes d.fmt), (Memory.read m (pixAddr d x y + k)).toNat * 2 ^ (8 * k) :=
  memRead_eq_sum m (pixAddr d x y) (pixBytes d.fmt)

/-- Settles O11: each operand is the field of the register its offset reads, and a pixel read is the sum of its bytes. -/
theorem operandsAreRegisterFields : Obligations.OperandsAreRegisterFields := by
  intro s
  obtain ⟨hsw, hsh⟩ := toNat_eq_sizeWord s.src.w s.src.h
  obtain ⟨hdw, hdh⟩ := toNat_eq_sizeWord s.dst.w s.dst.h
  obtain ⟨hdrw, hdrh⟩ := toNat_eq_sizeWord s.dstRsize.w s.dstRsize.h
  obtain ⟨hsrw, hsrh⟩ := toNat_eq_sizeWord s.srcRsize.w s.srcRsize.h
  exact ⟨rfl, hsw, hsh, toNat_fmtWord s.src.fmt, rfl, hdw, hdh, toNat_fmtWord s.dst.fmt,
    signed32_eq_toInt s.dstX, signed32_eq_toInt s.dstY, hdrw, hdrh,
    signed32_eq_toInt s.srcX, signed32_eq_toInt s.srcY, hsrw, hsrh,
    fun x y _ _ => ⟨rfl, fun m => pixRead_eq_sum m (srcBitmap s) x y⟩,
    fun x y _ _ => ⟨rfl, fun m => pixRead_eq_sum m (dstBitmap s) x y⟩⟩

end Sys2Proof.Proofs
end

section
/-! SUPPORT. What a command does to pixel memory (20_memory.md rule R69): the pixels it draws or moves, said once for each
command, and that it writes and reads only the footprints of its bitmaps. -/

namespace Sys2Proof.Proofs

open Sys2Proof.Machine Sys2Proof.Laws

/-! ### Drawing one colour over some pixels -/

/-- Every pixel of the list lies in the bitmap. -/
def PixelsIn (d : Bitmap) (pixels : List (Nat × Nat)) : Prop := ∀ q ∈ pixels, q.1 < d.w ∧ q.2 < d.h

/-- The pixel p combined into each pixel of the list in turn: what a command without a source bitmap does to memory
(`commandEffect_mem_cases`). -/
def drawPixels (comb : Comb) (d : Bitmap) (p : Nat) (pixels : List (Nat × Nat)) (m : Memory) : Memory :=
  pixels.foldl (fun m q => combineWrite comb d q.1 q.2 p m) m

theorem drawPixels_cons (comb : Comb) (d : Bitmap) (p : Nat) (q : Nat × Nat) (rest : List (Nat × Nat)) (m : Memory) :
    drawPixels comb d p (q :: rest) m = drawPixels comb d p rest (combineWrite comb d q.1 q.2 p m) := rfl

section Draw

variable {d : Bitmap}

/-- A combine changes no byte outside the footprint (20_memory.md rule R69). -/
theorem read_combineWrite_outside (comb : Comb) {x y : Nat} (p : Nat) (m : Memory) (hx : x < d.w) (hy : y < d.h) {a : Nat}
    (ha : ¬inFootprint d a) : Memory.read (combineWrite comb d x y p m) a = Memory.read m a := by
  have hin := pixAddr_in hx hy
  rw [combineWrite_eq]
  apply read_pixWrite_outside
  unfold inFootprint at ha
  omega

/-- A combine within a valid bitmap keeps the canonical form. -/
theorem wf_combineWrite (comb : Comb) {x y : Nat} (p : Nat) {m : Memory} (hm : Memory.wf m) (hx : x < d.w) (hy : y < d.h)
    (hv : validDesc d = true) : Memory.wf (combineWrite comb d x y p m) := by
  have hin := pixAddr_in hx hy
  obtain ⟨-, -, htop⟩ := (validDesc_iff d).mp hv
  rw [combineWrite_eq]
  exact wf_memWrite hm _ (by omega)

/-- What a combine leaves in the footprint depends on nothing outside it (20_memory.md rule R69). -/
theorem combineWrite_congr (comb : Comb) {x y : Nat} (p : Nat) {m m' : Memory} (hx : x < d.w) (hy : y < d.h)
    (h : ∀ a, inFootprint d a → Memory.read m a = Memory.read m' a) {a : Nat} (ha : inFootprint d a) :
    Memory.read (combineWrite comb d x y p m) a = Memory.read (combineWrite comb d x y p m') a := by
  rw [combineWrite_eq, combineWrite_eq, pixRead_congr hx hy h, pixWrite, pixWrite, read_memWrite, read_memWrite, h a ha]

variable {pixels : List (Nat × Nat)} (hin : PixelsIn d pixels)

include hin

theorem read_drawPixels_outside (comb : Comb) (p : Nat) (m : Memory) {a : Nat} (ha : ¬inFootprint d a) :
    Memory.read (drawPixels comb d p pixels m) a = Memory.read m a := by
  induction pixels generalizing m with
  | nil => rfl
  | cons q rest ih =>
    obtain ⟨⟨hx, hy⟩, hrest⟩ := List.forall_mem_cons.mp hin
    rw [drawPixels_cons, ih hrest, read_combineWrite_outside comb p m hx hy ha]

theorem wf_drawPixels (comb : Comb) (p : Nat) {m : Memory} (hm : Memory.wf m) (hv : validDesc d = true) :
    Memory.wf (drawPixels comb d p pixels m) := by
  induction pixels generalizing m with
  | nil => exact hm
  | cons q rest ih =>
    obtain ⟨⟨hx, hy⟩, hrest⟩ := List.forall_mem_cons.mp hin
    exact ih hrest (wf_combineWrite comb p hm hx hy hv)

theorem drawPixels_congr (comb : Comb) (p : Nat) {m m' : Memory}
    (h : ∀ a, inFootprint d a → Memory.read m a = Memory.read m' a) {a : Nat} (ha : inFootprint d a) :
    Memory.read (drawPixels comb d p pixels m) a = Memory.read (drawPixels comb d p pixels m') a := by
  induction pixels generalizing m m' with
  | nil => exact h a ha
  | cons q rest ih =>
    obtain ⟨⟨hx, hy⟩, hrest⟩ := List.forall_mem_cons.mp hin
    exact ih hrest fun b hb => combineWrite_congr comb p hx hy h hb

end Draw

/-! ### What a command does to memory -/

/-- The pixels PUTPIXEL visits: the one at (X, Y), or none (42_pixel_ops.md rule R140). -/
def putPixels (s : State) : List (Nat × Nat) :=
  if pixelInBounds s then [((dstPosX s).toNat, (dstPosY s).toNat)] else []

theorem putPixels_in (s : State) : PixelsIn (dstBitmap s) (putPixels s) := by
  unfold putPixels
  split
  · rename_i hb
    simp only [pixelInBounds, decide_eq_true_eq] at hb
    simp only [PixelsIn, List.mem_singleton, forall_eq]
    omega
  · exact nofun

theorem clearPixels_in (s : State) : PixelsIn (dstBitmap s) (clearPixels s) := fun _ => mem_rectIndices.mp

theorem putPixelEffect_eq_drawPixels (comb : Comb) (s : State) :
    (putPixelEffect comb s).mem = drawPixels comb (dstBitmap s) (colorPixel s) (putPixels s) s.mem := by
  rw [putPixelEffect_mem, putPixels]
  split <;> rfl

/-- What each column of commands does to memory, over any contents: nothing, one colour drawn over destination pixels, or
moves from source to destination pixels. -/
theorem commandEffect_mem_cases (i : Instr) (s : State) :
    (∀ m, (commandEffect i { s with mem := m }).mem = m) ∨
      (checkColumn i = .pixel ∧ ∃ comb pixels, PixelsIn (dstBitmap s) pixels ∧
        ∀ m, (commandEffect i { s with mem := m }).mem = drawPixels comb (dstBitmap s) (colorPixel s) pixels m) ∨
      (checkColumn i = .blit ∧ ∃ comb moves, MovesIn s moves ∧
        ∀ m, (commandEffect i { s with mem := m }).mem = runMoves s comb moves m) := by
  have put : ∀ comb m, (putPixelEffect comb { s with mem := m }).mem =
      drawPixels comb (dstBitmap s) (colorPixel s) (putPixels s) m := fun comb m =>
    putPixelEffect_eq_drawPixels comb { s with mem := m }
  cases i with
  | convert => exact .inl fun _ => rfl
  | encode => exact .inl fun _ => rfl
  | putpixel => exact .inr (.inl ⟨rfl, .replace, putPixels s, putPixels_in s, put .replace⟩)
  | putpixelAdd => exact .inr (.inl ⟨rfl, .add, putPixels s, putPixels_in s, put .add⟩)
  | clear => exact .inr (.inl ⟨rfl, .replace, clearPixels s, clearPixels_in s, fun _ => rfl⟩)
  | blit => exact .inr (.inr ⟨rfl, .replace, _, blitMoves_in s false, fun _ => rfl⟩)
  | blitKey => exact .inr (.inr ⟨rfl, .key, _, blitMoves_in s false, fun _ => rfl⟩)
  | blitAdd => exact .inr (.inr ⟨rfl, .add, _, blitMoves_in s false, fun _ => rfl⟩)
  | blitHflip => exact .inr (.inr ⟨rfl, .replace, _, blitMoves_in s true, fun _ => rfl⟩)
  | blitKeyHflip => exact .inr (.inr ⟨rfl, .key, _, blitMoves_in s true, fun _ => rfl⟩)
  | blitAddHflip => exact .inr (.inr ⟨rfl, .add, _, blitMoves_in s true, fun _ => rfl⟩)
  | sblit => exact .inr (.inr ⟨rfl, .replace, _, scaledMoves_in s (sblitRect s), fun _ => rfl⟩)
  | srblit => exact .inr (.inr ⟨rfl, .replace, _, scaledMoves_in s (srblitRect s), fun _ => rfl⟩)

/-- An effect changes no byte outside the DST footprint (20_memory.md rule R69). -/
theorem read_commandEffect_outside (i : Instr) (s : State) {a : Nat} (ha : ¬inFootprint (dstBitmap s) a) :
    Memory.read (commandEffect i s).mem a = Memory.read s.mem a := by
  rcases commandEffect_mem_cases i s with h | ⟨-, comb, pixels, hin, h⟩ | ⟨-, comb, moves, hin, h⟩
  · rw [h s.mem]
  · rw [h s.mem, read_drawPixels_outside hin comb _ _ ha]
  · rw [h s.mem, read_runMoves_outside hin comb _ ha]

/-- The bytes a command may read: the DST footprint, and for a blit the SRC footprint (20_memory.md rule R69). -/
def mayRead (i : Instr) (s : State) (a : Nat) : Prop :=
  inFootprint (dstBitmap s) a ∨ (checkColumn i = .blit ∧ inFootprint (srcBitmap s) a)

/-- What an effect leaves in the DST footprint depends on nothing but the bytes the command may read (20_memory.md rule
R69). -/
theorem commandEffect_congr {i : Instr} {s : State} {m : Memory}
    (h : ∀ a, mayRead i s a → Memory.read m a = Memory.read s.mem a) {a : Nat} (ha : inFootprint (dstBitmap s) a) :
    Memory.read (commandEffect i { s with mem := m }).mem a = Memory.read (commandEffect i s).mem a := by
  have hdst : ∀ b, inFootprint (dstBitmap s) b → Memory.read m b = Memory.read s.mem b := fun b hb => h b (.inl hb)
  rcases commandEffect_mem_cases i s with he | ⟨-, comb, pixels, hin, he⟩ | ⟨hcol, comb, moves, hin, he⟩
  · rw [he m, he s.mem, hdst a ha]
  · rw [he m, he s.mem]
    exact drawPixels_congr hin comb _ hdst ha
  · rw [he m, he s.mem]
    refine runMoves_congr hin comb (fun b hb => h b ?_) (.inr ha)
    rcases hb with hsrc | hdst
    · exact .inr ⟨hcol, hsrc⟩
    · exact .inl hdst

/-- An effect leaves the same registers over every memory (20_memory.md rule R69). -/
theorem commandEffect_registers (i : Instr) (s : State) (m m' : Memory) :
    { commandEffect i { s with mem := m } with mem := m' } = { commandEffect i s with mem := m' } := by
  have hpixout : (commandEffect i { s with mem := m }).pixout = (commandEffect i s).pixout := by
    cases i <;> simp only [commandEffect, putPixelEffect_pixout] <;> rfl
  rw [commandEffect_frame, commandEffect_frame i s, hpixout]

/-- Settles O23: an effect stays in the footprint and records no fault, and raising a fault leaves memory alone. -/
theorem commandsWriteOnlyTheDstFootprint : Obligations.CommandsWriteOnlyTheDstFootprint := by
  intro i s t h
  rcases exec_cases h with ⟨-, rfl⟩ | ⟨-, k, -, rfl⟩ | ⟨⟨hf, -⟩, rfl⟩
  · exact ⟨fun _ _ => rfl, fun _ => rfl⟩
  · exact ⟨fun _ _ => rfl, fun _ => rfl⟩
  · refine ⟨fun a => read_commandEffect_outside i s, fun hft => ?_⟩
    rw [(commandEffect_record i s).1, hf] at hft
    contradiction

/-- Settles O24: the checks read no memory, so both runs do the same of the three things a command can do. -/
theorem commandsReadOnlyTheirFootprints : Obligations.CommandsReadOnlyTheirFootprints := by
  intro i s m hread
  have hdst : ∀ a, inFootprint (dstBitmap s) a → Memory.read m a = Memory.read s.mem a := fun a ha => hread a (.inl ha)
  obtain ⟨t, ht⟩ := exec_next i s
  rcases exec_cases ht with ⟨hf, rfl⟩ | ⟨hf, k, hk, rfl⟩ | ⟨hr, rfl⟩
  · exact ⟨t, _, ht, exec_faulted i (s := { t with mem := m }) hf, rfl, hdst⟩
  · exact ⟨_, _, ht, exec_raises (s := { s with mem := m }) hf hk, rfl, hdst⟩
  · exact ⟨_, _, ht, exec_ready (s := { s with mem := m }) hr, commandEffect_registers i s m _,
      fun a => commandEffect_congr hread⟩

end Sys2Proof.Proofs
end

section
/-! SUPPORT. The invariant of the machine, kept by every step: canonical memory within the address space (20_memory.md rule
R61) and a fault record that a fault can leave (60_exceptions.md rule R191). -/

namespace Sys2Proof.Proofs

open Sys2Proof.Machine Sys2Proof.Laws

/-- An effect whose checks pass keeps memory canonical. -/
theorem wf_commandEffect {i : Instr} {s : State} (hr : ready i s) (hm : Memory.wf s.mem) :
    Memory.wf (commandEffect i s).mem := by
  obtain ⟨-, hchecks⟩ := hr
  rcases commandEffect_mem_cases i s with h | ⟨hcol, comb, pixels, hin, h⟩ | ⟨hcol, comb, moves, hin, h⟩
  · rw [h s.mem]
    exact hm
  · rw [hcol] at hchecks
    rw [h s.mem]
    exact wf_drawPixels hin comb _ hm (pixel_checked hchecks).2
  · rw [hcol] at hchecks
    obtain ⟨-, -, -, hv, -⟩ := blit_checked hchecks
    rw [h s.mem]
    exact wf_runMoves hin comb hm hv

/-- The fault record is three registers. -/
theorem recordOk_congr {s t : State} (h : t.fault = s.fault ∧ t.err = s.err ∧ t.fcmd = s.fcmd) :
    recordOk t ↔ recordOk s := by
  obtain ⟨hf, he, hc⟩ := h
  rw [recordOk, recordOk, hf, he, hc]

/-- A reserved word raises E_ILLEGAL (60_exceptions.md rule R191). -/
theorem recordOk_raiseIllegal {cw : Word} (h : ∃ r, decode cw = .error r) (s : State) :
    recordOk (raiseFault .illegal cw s) := .inl ⟨rfl, h⟩

/-- A check that fails raises a fault its command can raise (60_exceptions.md rules R191, R192). -/
theorem recordOk_raiseCheck {i : Instr} {s : State} {k : FaultCode} (h : tableFault (checkColumn i) s = some k) :
    recordOk (raiseFault k (encode i) s) := by
  refine .inr ⟨i, decode_encode i, ?_⟩
  rcases tableFault_code h with rfl | ⟨rfl, hcols⟩ | ⟨rfl, hcol⟩
  · exact .inl rfl
  · exact .inr (.inl ⟨rfl, hcols⟩)
  · exact .inr (.inr ⟨rfl, hcol⟩)

theorem invariant_exec {i : Instr} {s t : State} (hs : Invariant s) (h : exec i s = .next t) : Invariant t := by
  obtain ⟨hm, hrec⟩ := hs
  rcases exec_cases h with ⟨-, rfl⟩ | ⟨-, k, hk, rfl⟩ | ⟨hr, rfl⟩
  · exact ⟨hm, hrec⟩
  · exact ⟨hm, recordOk_raiseCheck hk⟩
  · exact ⟨wf_commandEffect hr hm, (recordOk_congr (commandEffect_record i s)).mpr hrec⟩

theorem invariant_cmdWrite {cw : Word} {s t : State} (hs : Invariant s) (h : cmdWrite exec cw s = .next t) :
    Invariant t := by
  rcases cmdWrite_cases h with ⟨-, rfl⟩ | ⟨-, hr, rfl⟩ | ⟨-, i, -, hi⟩
  · exact hs
  · exact ⟨hs.1, recordOk_raiseIllegal hr s⟩
  · exact invariant_exec hs hi

/-- A reset empties the fault record and leaves memory alone (70_reset_and_hazards.md rule R220). -/
theorem invariant_resetRegs {s : State} (hs : Invariant s) : Invariant (resetRegs s) := ⟨hs.1, rfl, rfl⟩

/-- Handing a value to the host touches neither memory nor the fault record (log 4). -/
theorem invariant_answer {s : State} (hs : Invariant s) (v : Word) : Invariant (answer v s) := hs

theorem invariant_regWrite {s : State} (hs : Invariant s) (v : Word) (r : Reg) : Invariant (regWrite s v r) := by
  by_cases hr : r ≠ .reset ∨ v.getLsbD 0 = false
  · refine ⟨?_, (recordOk_congr (regWrite_record s v hr)).mpr hs.2⟩
    rw [(regWrite_frame s v r).1]
    exact hs.1
  · obtain ⟨rfl, hv⟩ : r = .reset ∧ v.getLsbD 0 = true := by simpa using hr
    rw [regWrite, if_pos hv]
    exact invariant_resetRegs hs

theorem invariant_portWrite {o : Nat} {v : Word} {s t : State} (hs : Invariant s)
    (h : portWrite exec o v s = .next t) : Invariant t := by
  rcases portWrite_cases o v s with ⟨-, he⟩ | ⟨-, he⟩ | ⟨r, -, -, he⟩ <;> rw [he] at h
  · exact invariant_cmdWrite hs h
  · exact Host.Outcome.next.inj h ▸ hs
  · exact Host.Outcome.next.inj h ▸ invariant_regWrite hs v r

theorem invariant_hostAction {a : HostAction} {s t : State} (hs : Invariant s) (h : hostAction exec a s = .next t) :
    Invariant t := by
  cases a with
  | wr idx v => exact invariant_portWrite hs h
  | rd idx => exact Host.Outcome.next.inj h ▸ invariant_answer hs _
  | mw addr n v =>
    rw [hostAction] at h
    split at h
    · contradiction
    · rename_i hstop
      obtain ⟨-, -, htop⟩ := accessStop_none_iff.mp hstop
      exact Host.Outcome.next.inj h ▸ ⟨wf_memWrite hs.1 v.toNat htop, hs.2⟩
  | mr addr n =>
    rw [hostAction] at h
    split at h
    · contradiction
    · exact Host.Outcome.next.inj h ▸ invariant_answer hs _
  | resetInput => exact Host.Outcome.next.inj h ▸ invariant_resetRegs hs

/-- Settles O54: an idle step changes nothing, and every host action keeps the invariant. -/
theorem everyStepKeepsTheInvariant : Obligations.EveryStepKeepsTheInvariant := by
  intro s t hs h
  cases hhost : s.host with
  | nil =>
    rw [step_idle hhost] at h
    exact Host.Outcome.next.inj h ▸ hs
  | cons a rest =>
    rw [step_action hhost] at h
    exact invariant_hostAction (s := { s with host := rest }) hs h

end Sys2Proof.Proofs
end

section
/-! SUPPORT. Command words (30_encoding.md rules R80 to R86): decoding and encoding are inverse to each other, so the legal
words are the thirteen encodings and every other word is reserved; and the step that writes a word to CMD (rule R81). -/

namespace Sys2Proof.Proofs

open Sys2Proof.Machine Sys2Proof.Laws

/-! ### Fields -/

/-- The four fields cover the word (30_encoding.md rule R80). -/
theorem packFields_cmdFields (w : Word) : packFields (cmdFields w) = w := by
  rw [packFields, cmdFields, BitVec.extractLsb'_append_extractLsb'_eq_extractLsb' (by decide),
    BitVec.extractLsb'_append_extractLsb'_eq_extractLsb' (by decide),
    BitVec.extractLsb'_append_extractLsb'_eq_extractLsb' (by decide)]
  exact BitVec.extractLsb'_eq_self

theorem cmdFields_ext_toNat {f g : CmdFields} (hopc : f.opc.toNat = g.opc.toNat) (hcomb : f.comb.toNat = g.comb.toNat)
    (hhflip : f.hflip.toNat = g.hflip.toNat) (hzero : f.zero = g.zero) : f = g := by
  cases f
  cases g
  simp only [CmdFields.mk.injEq]
  exact ⟨BitVec.eq_of_toNat_eq hopc, BitVec.eq_of_toNat_eq hcomb, BitVec.eq_of_toNat_eq hhflip, hzero⟩

/-- Fields that decode are those of the command they decode to (30_encoding.md rule R84). -/
theorem eq_instrFields_of_decodeFields {f : CmdFields} {i : Instr} (h : decodeFields f = .ok i) : f = instrFields i := by
  unfold decodeFields at h
  split at h
  · contradiction
  · rename_i hzero
    rw [not_not] at hzero
    split at h
    case h_14 => split at h <;> contradiction
    all_goals
      rename_i hopc hcomb hhflip
      cases h
      exact cmdFields_ext_toNat hopc hcomb hhflip hzero

/-! ### Legal and reserved words -/

/-- The legal words are the encodings, one for each command (30_encoding.md rules R84, R86). -/
theorem decode_eq_ok_iff {w : Word} {i : Instr} : decode w = .ok i ↔ encode i = w := by
  refine ⟨fun h => ?_, fun h => h ▸ decode_encode i⟩
  rw [encode, ← eq_instrFields_of_decodeFields h, packFields_cmdFields]

/-- Every word that is no command's is reserved (30_encoding.md rule R85). -/
theorem decode_error_iff {w : Word} : (∃ r, decode w = .error r) ↔ ∀ i, encode i ≠ w := by
  simp only [Ne, ← decode_eq_ok_iff]
  cases decode w <;> simp

/-- The thirteen commands, in the order of the table of 30_encoding.md rule R84. -/
def commands : List Instr :=
  [.convert, .encode, .putpixel, .putpixelAdd, .clear, .blit, .blitKey, .blitAdd, .blitHflip, .blitKeyHflip,
    .blitAddHflip, .sblit, .srblit]

theorem mem_commands (i : Instr) : i ∈ commands := by cases i <;> decide

/-- Settles O2: the table lists each command with its encoding. -/
theorem exactlyTheTableWordsAreLegal : Obligations.ExactlyTheTableWordsAreLegal := by
  intro w i
  have htable : (i, w) ∈ commands.map (fun j => (j, encode j)) ↔ encode i = w := by
    simp [mem_commands]
  exact decode_eq_ok_iff.trans htable.symm

/-- The field conditions of 30_encoding.md rule R85, on the number of a word. -/
def ReservedNumber (n : Nat) : Prop :=
  (n % 16 = 0 ∨ 8 ≤ n % 16) ∨ n / 16 % 4 = 3 ∨ n / 128 ≠ 0 ∨
    ((n / 16 % 4 ≠ 0 ∨ n / 64 % 2 = 1) ∧ n % 16 ∈ [1, 2, 4, 6, 7]) ∨
      ((n / 16 % 4 = 1 ∨ n / 64 % 2 = 1) ∧ n % 16 = 3)

/-- Where ZERO is 0, seven bits are left, and the words of the commands are those that no condition of rule R85 excludes. -/
theorem reservedNumber_iff_of_lt :
    ∀ n < 128, ReservedNumber n ↔ n ∉ commands.map fun i => (encode i).toNat := by
  unfold ReservedNumber
  decide

theorem encode_lt (i : Instr) : (encode i).toNat < 128 := by cases i <;> decide

theorem reservedNumber_iff (n : Nat) : ReservedNumber n ↔ ∀ i, (encode i).toNat ≠ n := by
  by_cases hn : n < 128
  · simp [reservedNumber_iff_of_lt n hn, mem_commands]
  · have hzero : n / 128 ≠ 0 := by omega
    refine iff_of_true (.inr (.inr (.inl hzero))) fun i h => ?_
    exact hn (h ▸ encode_lt i)

/-- Settles O4: a word is reserved when it is no command's, and a CMD write of one records E_ILLEGAL and the word. -/
theorem reservedWordsRaiseIllegal : Obligations.ReservedWordsRaiseIllegal := by
  refine ⟨fun w => ?_, fun s w rest hhost hf ⟨r, hr⟩ => ?_⟩
  · simp only [decode_error_iff, Ne, BitVec.toNat_eq]
    exact (reservedNumber_iff w.toNat).symm
  · rw [step_cmd hhost, cmdWrite_eq, if_neg (by simp [hf]), hr]
    rfl

/-- Settles O5: `withFetchWord` puts the write of the same word before the host's list. -/
theorem stepRunsTheDecodedCommand : Obligations.StepRunsTheDecodedCommand := by
  refine ⟨fun s w i rest hhost hf hd _ => step_runs hhost hf hd, fun s w i hw hf hd => ?_⟩
  rw [← Nat.mod_eq_of_lt hw] at hd
  exact step_runs (s := s.withFetchWord 32 w) rfl hf hd

end Sys2Proof.Proofs
end

section
/-! SUPPORT. The pseudo-instructions (30_encoding.md rules R90, R91): each call is a set-up of register writes and one
command, and the converter calls then read PIXOUT. -/

namespace Sys2Proof.Proofs

open Sys2Proof.Machine Sys2Proof.Laws

/-! ### Drawing calls -/

/-- The register writes of `SETDST d` (30_encoding.md rule R91). -/
def dstWrites (d : Desc) : List (Reg × Word) :=
  [(.dstBase, d.base), (.dstSize, sizeWord d.w d.h), (.dstFmt, d.fmt.setWidth 32)]

/-- The register writes of `SETSRC r` (30_encoding.md rule R91). -/
def srcWrites (r : Desc) : List (Reg × Word) :=
  [(.srcBase, r.base), (.srcSize, sizeWord r.w r.h), (.srcFmt, r.fmt.setWidth 32)]

/-- `SETDST` replaces the whole descriptor, whatever it held. -/
theorem foldl_dstWrites (d : Desc) (s : State) :
    (dstWrites d).foldl (fun s p => regWrite s p.2 p.1) s = { s with dst := d } := by
  simp only [dstWrites, List.foldl, regWrite, wordLow_sizeWord, wordHigh_sizeWord, extractLsb'_fmt]

/-- `SETSRC` replaces the whole descriptor, whatever it held. -/
theorem foldl_srcWrites (r : Desc) (s : State) :
    (srcWrites r).foldl (fun s p => regWrite s p.2 p.1) s = { s with src := r } := by
  simp only [srcWrites, List.foldl, regWrite, wordLow_sizeWord, wordHigh_sizeWord, extractLsb'_fmt]

section Drawing

variable {s : State} (hf : s.fault = false)

include hf

/-- A call that sets DST up, writes other operands and runs a command. -/
theorem runHost_setDst (d : Desc) (l : List (Reg × Word)) (hl : ∀ p ∈ l, p.1 ≠ .cmd ∧ p.1 ≠ .reset) (i : Instr) :
    runHost (setDst d ++ (l.map (fun p => wrReg p.1 p.2) ++ [cmd i])) s =
      exec i { l.foldl (fun s p => regWrite s p.2 p.1) { s with dst := d } with host := [] } := by
  have hset := runHost_setup (dstWrites d ++ l) (by simpa [dstWrites] using hl) i s hf
  rwa [List.foldl_append, foldl_dstWrites, List.map_append, List.append_assoc] at hset

/-- A call that sets DST and SRC up, writes other operands and runs a command. -/
theorem runHost_setDst_setSrc (d r : Desc) (l : List (Reg × Word)) (hl : ∀ p ∈ l, p.1 ≠ .cmd ∧ p.1 ≠ .reset) (i : Instr) :
    runHost (setDst d ++ setSrc r ++ (l.map (fun p => wrReg p.1 p.2) ++ [cmd i])) s =
      exec i { l.foldl (fun s p => regWrite s p.2 p.1) { s with dst := d, src := r } with host := [] } := by
  have hset := runHost_setDst hf d (srcWrites r ++ l) (by simpa [srcWrites] using hl) i
  rwa [List.foldl_append, foldl_srcWrites, List.map_append, List.append_assoc, ← List.append_assoc] at hset

theorem runHost_apiScaledBlit (d r : Desc) (x y : Word) (z : Size) :
    runHost (apiScaledBlit d r x y z) s =
      exec .sblit { s with dst := d, src := r, dstX := x, dstY := y, dstRsize := z, host := [] } := by
  have hrun := runHost_setDst_setSrc hf d r [(.dstX, x), (.dstY, y), (.dstRsize, sizeWord z.w z.h)] (by simp) .sblit
  simp only [List.foldl, regWrite, wordLow_sizeWord, wordHigh_sizeWord] at hrun
  exact hrun

theorem runHost_apiScaledRegionBlit (d r : Desc) (sx sy : Word) (sz : Size) (x y : Word) (z : Size) :
    runHost (apiScaledRegionBlit d r sx sy sz x y z) s =
      exec .srblit
        { s with
          dst := d, src := r, srcX := sx, srcY := sy, srcRsize := sz, dstX := x, dstY := y, dstRsize := z,
          host := [] } := by
  have hrun := runHost_setDst_setSrc hf d r [(.srcX, sx), (.srcY, sy), (.srcRsize, sizeWord sz.w sz.h),
    (.dstX, x), (.dstY, y), (.dstRsize, sizeWord z.w z.h)] (by simp) .srblit
  simp only [List.foldl, regWrite, wordLow_sizeWord, wordHigh_sizeWord] at hrun
  exact hrun

end Drawing

/-- Settles O51: each call is its set-up and its command. -/
theorem drawingCallsRunTheirCommand : Obligations.DrawingCallsRunTheirCommand :=
  ⟨fun form d r x y _ hf => runHost_setDst_setSrc hf d r [(.dstX, x), (.dstY, y)] (by simp) form,
    fun d r x y z _ hf => runHost_apiScaledBlit hf d r x y z,
    fun d r sx sy sz x y z _ hf => runHost_apiScaledRegionBlit hf d r sx sy sz x y z,
    fun d x y c _ hf => runHost_setDst hf d [(.dstX, x), (.dstY, y), (.color, c)] (by simp) .putpixel,
    fun d c _ hf => runHost_setDst hf d [(.color, c)] (by simp) .clear⟩

/-! ### Converter calls -/

/-- A run that reads one register ends with its value among the answers (log 4). -/
theorem run_rdReg {s : State} {r : Reg} (hs : s.host = [rdReg r]) :
    Host.Core.run Sys2Proof.core 1 s = .next (answer (regRead s r) { s with host := [] }) := by
  apply run_next
  rw [step_action hs, rdReg, hostAction, regOffset_aligned, portRead_regOffset, regRead_host]

/-- A set-up of register writes, a command and then a read of a register. -/
theorem runHost_setup_rdReg {l : List (Reg × Word)} (hl : ∀ p ∈ l, p.1 ≠ .cmd ∧ p.1 ≠ .reset) {i : Instr} {r : Reg}
    {s t : State} (hf : s.fault = false)
    (ht : exec i { l.foldl (fun s p => regWrite s p.2 p.1) s with host := [rdReg r] } = .next t) :
    runHost (l.map (fun p => wrReg p.1 p.2) ++ [cmd i, rdReg r]) s = .next (answer (regRead t r) { t with host := [] }) := by
  unfold runHost
  induction l generalizing s with
  | nil => exact (run_ofCommand hf ht).trans (run_rdReg (by rw [exec_frame ht]))
  | cons p l ih =>
    obtain ⟨⟨hcmd, hreset⟩, hrest⟩ := List.forall_mem_cons.mp hl
    rw [List.map_cons, List.cons_append, List.length_cons, run_wrReg hcmd]
    exact ih hrest ((regWrite_record s p.2 (.inl hreset)).1.trans hf) ht

theorem ready_encode {s : State} (hf : s.fault = false) (hdst : known s s.dst.fmt = true) : ready .encode s :=
  ⟨hf, by simp [checkColumn, tableFault, hdst]⟩

theorem ready_convert {s : State} (hf : s.fault = false) (hsrc : known s s.src.fmt = true)
    (hdst : known s s.dst.fmt = true) : ready .convert s :=
  ⟨hf, by simp [checkColumn, tableFault, hsrc, hdst]⟩

/-- A pixel of a valid format fits a register (40_convert.md rule R108). -/
theorem two_pow_bpp_le {f : PixFmt} (hf : validFmt f = true) : 2 ^ bpp f ≤ 2 ^ 32 :=
  Nat.pow_le_pow_right (by decide) (bpp_le hf)

theorem convertPixel_lt_word {s : State} (ids : BitVec 3) {idd : BitVec 3} (hd : known s idd = true) (p : Word) :
    convertPixel s ids idd p.toNat < 2 ^ 32 := by
  unfold convertPixel
  split
  · exact p.isLt
  · exact (convertChannels_lt _ hd _).trans_le (two_pow_bpp_le hd)

/-- The register writes of `convert(sf, df, p)` (30_encoding.md rule R91). -/
def convertWrites (sf df : BitVec 3) (p : Word) : List (Reg × Word) :=
  [(.srcFmt, sf.setWidth 32), (.dstFmt, df.setWidth 32), (.pixin, p)]

/-- The register writes of `encode(fmt, rgba)` (30_encoding.md rule R91). -/
def encodeWrites (f : BitVec 3) (c : Word) : List (Reg × Word) := [(.dstFmt, f.setWidth 32), (.color, c)]

theorem foldl_convertWrites (sf df : BitVec 3) (p : Word) (s : State) :
    (convertWrites sf df p).foldl (fun s p => regWrite s p.2 p.1) s =
      { s with src := { s.src with fmt := sf }, dst := { s.dst with fmt := df }, pixin := p } := by
  simp only [convertWrites, List.foldl, regWrite, extractLsb'_fmt]

theorem foldl_encodeWrites (f : BitVec 3) (c : Word) (s : State) :
    (encodeWrites f c).foldl (fun s p => regWrite s p.2 p.1) s = { s with dst := { s.dst with fmt := f }, color := c } := by
  simp only [encodeWrites, List.foldl, regWrite, extractLsb'_fmt]

theorem runHost_apiConvert {sf df : BitVec 3} (p : Word) {s : State} (hf : s.fault = false) (hs : known s sf = true)
    (hd : known s df = true) :
    ∃ t, runHost (apiConvert sf df p) s = .next t ∧ t.fault = false ∧ t.mem = s.mem ∧
      t.answers = s.answers ++ [BitVec.ofNat 32 (convertPixel s sf df p.toNat)] := by
  have hrun := runHost_setup_rdReg (l := convertWrites sf df p) (by simp [convertWrites]) (r := .pixout) hf
    (exec_ready (i := .convert) (by rw [foldl_convertWrites]; exact ready_convert hf hs hd))
  rw [foldl_convertWrites] at hrun
  exact ⟨_, hrun, hf, rfl, rfl⟩

theorem runHost_apiEncode {f : BitVec 3} (c : Word) {s : State} (hf : s.fault = false) (hd : known s f = true) :
    ∃ t, runHost (apiEncode f c) s = .next t ∧ t.fault = false ∧ t.mem = s.mem ∧
      t.answers = s.answers ++ [BitVec.ofNat 32 (encodePixel (fmtSlot s f) c.toNat)] := by
  have hrun := runHost_setup_rdReg (l := encodeWrites f c) (by simp [encodeWrites]) (r := .pixout) hf
    (exec_ready (i := .encode) (by rw [foldl_encodeWrites]; exact ready_encode hf hd))
  rw [foldl_encodeWrites] at hrun
  exact ⟨_, hrun, hf, rfl, rfl⟩

/-- Settles O52: the answer is PIXOUT, which holds the pixel since a pixel of a known format fits a register. -/
theorem converterCallsReturnTheirPixel : Obligations.ConverterCallsReturnTheirPixel := by
  refine ⟨fun sf df p s hf hs hd => ?_, fun f c s hf hd => ?_⟩
  · obtain ⟨t, hrun, hfault, hmem, hans⟩ := runHost_apiConvert p hf hs hd
    have hlt : convertPixel s sf df p.toNat < 2 ^ 32 := convertPixel_lt_word sf hd p
    exact ⟨t, _, hrun, hfault, hmem, hans, (BitVec.toNat_ofNat _ _).trans (Nat.mod_eq_of_lt hlt)⟩
  · obtain ⟨t, hrun, hfault, hmem, hans⟩ := runHost_apiEncode c hf hd
    have hlt : encodePixel (fmtSlot s f) c.toNat < 2 ^ 32 := (encodePixel_lt hd _).trans_le (two_pow_bpp_le hd)
    exact ⟨t, _, hrun, hfault, hmem, hans, (BitVec.toNat_ofNat _ _).trans (Nat.mod_eq_of_lt hlt)⟩

end Sys2Proof.Proofs
end

section
/-! SUPPORT. The converter (40_convert.md): rescaling (rule R101), the fields of a pixel (rule R100), packed pixels as sums
(rule R104), conversions and their laws (rules R105 to R108, R113), and the commands CONVERT and ENCODE (rules R110,
R111). -/

namespace Sys2Proof.Proofs

open Sys2Proof.Machine Sys2Proof.Laws

/-! ### Rescaling -/

theorem rescale_narrow (v : Nat) {ws wd : Nat} (h : wd < ws) : rescale v ws wd = v / 2 ^ (ws - wd) := by
  rw [rescale, if_pos h, Nat.shiftRight_eq_div_pow]

theorem rescale_widen (v : Nat) {ws wd : Nat} (h : ws < wd) : rescale v ws wd = v * 2 ^ (wd - ws) := by
  rw [rescale, if_neg h.not_gt, if_pos h, Nat.shiftLeft_eq]

@[simp] theorem rescale_zero (ws wd : Nat) : rescale 0 ws wd = 0 := by simp [rescale]

/-- Settles O28: the two ways of rescaling, and the range, which at width 0 leaves 0 alone. -/
theorem rescaleTruncatesOrZeroFills : Obligations.RescaleTruncatesOrZeroFills := by
  refine ⟨fun v _ _ => rescale_narrow v, fun v _ _ => rescale_widen v, rescale_self, fun _ _ wd => rescale_lt wd, ?_, ?_,
    by decide⟩
  · intro v wd hv
    rw [Nat.lt_one_iff.mp hv, rescale_zero]
  · intro v ws hv
    exact Nat.lt_one_iff.mp (rescale_lt 0 hv)

/-! ### Fields -/

theorem chanGet_eq_div_mod (f : PixFmt) (k : Chan) (p : Nat) : chanGet f k p = p / 2 ^ off f k % 2 ^ wid f k := by
  rw [chanGet, and_ones, Nat.shiftRight_eq_div_pow]

theorem canonical_eq_div_mod (c : Nat) (k : Chan) : canonical c k = c / 2 ^ canonicalBit k % 2 ^ 8 := by
  rw [canonical, bitField, Nat.shiftRight_eq_div_pow]

/-- A field depends only on the bits its channel covers (40_convert.md rule R100). -/
theorem chanGet_congr {f : PixFmt} {k : Chan} {p p' : Nat}
    (h : ∀ b, off f k ≤ b → b < off f k + wid f k → p'.testBit b = p.testBit b) : chanGet f k p' = chanGet f k p := by
  apply Nat.eq_of_testBit_eq
  intro b
  rw [testBit_chanGet, testBit_chanGet]
  by_cases hb : b < wid f k
  · rw [h _ (by omega) (by omega)]
  · simp [hb]

/-- A field put back in its place is the masked pixel (40_convert.md rule R100). -/
theorem chanPut_chanGet (f : PixFmt) (k : Chan) (p : Nat) : chanPut f k (chanGet f k p) = p &&& chanMask f k := by
  apply Nat.eq_of_testBit_eq
  intro b
  rw [testBit_chanPut, testBit_chanGet, Nat.testBit_and, testBit_chanMask]
  by_cases hb : off f k ≤ b
  · simp [hb]
  · simp [hb]

/-! ### Packed pixels as sums -/

/-- Two numbers that share no bit are added without a carry. -/
theorem or_eq_add_of_and_eq_zero {a b : Nat} (h : a &&& b = 0) : a ||| b = a + b := by
  induction a using Nat.strongRecOn generalizing b with
  | ind a ih =>
    rcases Nat.eq_zero_or_pos a with rfl | hpos
    · simp
    · have hhalves : (a ||| b) / 2 = a / 2 + b / 2 := by
        rw [Nat.or_div_two]
        exact ih _ (by omega) (by rw [← Nat.and_div_two, h])
      have hor := Nat.or_mod_two_eq_one (a := a) (b := b)
      have hand := Nat.and_mod_two_eq_one (a := a) (b := b)
      rw [h] at hand
      omega

/-- Values that fit two channels of a valid format share no bit once put in place (10_state.md rule R31). -/
theorem chanPut_and_chanPut {f : PixFmt} (hf : validFmt f = true) {g : Chan → Nat} (hg : ∀ k, g k < 2 ^ wid f k)
    {c d : Chan} (hne : c ≠ d) : chanPut f c (g c) &&& chanPut f d (g d) = 0 := by
  apply Nat.eq_of_testBit_eq
  intro b
  rw [Nat.zero_testBit, ← Bool.not_eq_true]
  simp only [Nat.testBit_and, testBit_chanPut, Bool.and_eq_true, decide_eq_true_eq]
  rintro ⟨⟨hc, hcbit⟩, hd, hdbit⟩
  exact hne (covered_unique hf hc (covered_of_bit hg hc hcbit) hd (covered_of_bit hg hd hdbit))

/-- "Since the channels of a valid format are disjoint, the OR is also the sum" (40_convert.md rule R104). -/
theorem orChannels_eq_add {f : PixFmt} (hf : validFmt f = true) {g : Chan → Nat} (hg : ∀ k, g k < 2 ^ wid f k) :
    (orChannels fun k => chanPut f k (g k)) =
      chanPut f .R (g .R) + chanPut f .G (g .G) + chanPut f .B (g .B) + chanPut f .A (g .A) := by
  have hapart {c d : Chan} : c ≠ d → chanPut f c (g c) &&& chanPut f d (g d) = 0 := chanPut_and_chanPut hf hg
  have hRG : chanPut f .R (g .R) &&& chanPut f .G (g .G) = 0 := hapart (by decide)
  have hRGB : (chanPut f .R (g .R) ||| chanPut f .G (g .G)) &&& chanPut f .B (g .B) = 0 := by
    rw [Nat.and_or_distrib_right, hapart (by decide), hapart (by decide), Nat.or_self]
  have hRGBA : (chanPut f .R (g .R) ||| chanPut f .G (g .G) ||| chanPut f .B (g .B)) &&& chanPut f .A (g .A) = 0 := by
    rw [Nat.and_or_distrib_right, Nat.and_or_distrib_right, hapart (by decide), hapart (by decide), hapart (by decide),
      Nat.or_self, Nat.or_self]
  rw [orChannels, or_eq_add_of_and_eq_zero hRGBA, or_eq_add_of_and_eq_zero hRGB, or_eq_add_of_and_eq_zero hRG]

/-- Settles O29: the OR is the definition, with the channels of the colour as remainders, and the fields are disjoint. -/
theorem encodeIsTheSumOfItsChannels : Obligations.EncodeIsTheSumOfItsChannels := by
  intro f c hf
  have hR : c % 2 ^ 8 = canonical c .R := by simp [canonical_eq_div_mod, canonicalBit]
  have hG : c / 2 ^ 8 % 2 ^ 8 = canonical c .G := (canonical_eq_div_mod c .G).symm
  have hB : c / 2 ^ 16 % 2 ^ 8 = canonical c .B := (canonical_eq_div_mod c .B).symm
  have hA : c / 2 ^ 24 % 2 ^ 8 = canonical c .A := (canonical_eq_div_mod c .A).symm
  rw [hR, hG, hB, hA]
  refine ⟨rfl, ?_⟩
  simp only [← Nat.shiftLeft_eq]
  exact orChannels_eq_add hf (encode_field_lt f c)

/-! ### Conversions -/

theorem convertPixel_same (s : State) (id : BitVec 3) (p : Nat) : convertPixel s id id p = p := if_pos rfl

theorem convertPixel_of_ne (s : State) {ids idd : BitVec 3} (h : ids ≠ idd) (p : Nat) :
    convertPixel s ids idd p = convertChannels (fmtSlot s ids) (fmtSlot s idd) p := if_neg h

/-- A conversion depends only on the fields of its source (40_convert.md rule R107). -/
theorem convertChannels_congr {fs : PixFmt} (fd : PixFmt) {p p' : Nat} (h : ∀ k, chanGet fs k p' = chanGet fs k p) :
    convertChannels fs fd p' = convertChannels fs fd p := by
  simp only [convertChannels, h]

/-- Settles O30: each field of the result is the one put there, no other bit is set, and only the fields of the source are
read. -/
theorem convertRescalesEachChannel : Obligations.ConvertRescalesEachChannel := by
  refine ⟨fun fs fd p _ hd => ⟨fun k => ?_, fun b hb => ?_, fun p' hp' => ?_, convertChannels_lt fs hd p⟩,
    convertPixel_same, fun s _ _ p hne => convertPixel_of_ne s hne p⟩
  · rw [← chanGet_eq_div_mod, ← chanGet_eq_div_mod, chanGet_convertChannels fs hd]
  · exact orChannels_uncovered (convert_field_lt fs fd p) hb
  · exact convertChannels_congr fd fun k => chanGet_congr (hp' k)

/-- Through a format no channel of which is narrower and back is as good as staying (40_convert.md rule R113, item 2). -/
theorem convertChannels_there_and_back {fa fb : PixFmt} (hb : validFmt fb = true) (hw : ∀ k, wid fa k ≤ wid fb k)
    (p : Nat) : convertChannels fb fa (convertChannels fa fb p) = convertChannels fa fa p := by
  have hfield (k : Chan) : rescale (chanGet fb k (convertChannels fa fb p)) (wid fb k) (wid fa k) = chanGet fa k p := by
    rw [chanGet_convertChannels fa hb, rescale_rescale _ (hw k)]
  rw [convertChannels]
  simp only [hfield]
  simp only [convertChannels, rescale_self]

/-- Converting a format to itself keeps exactly the covered bits (40_convert.md rule R113, item 5). -/
theorem convertChannels_self (f : PixFmt) (p : Nat) :
    convertChannels f f p = p &&& (chanMask f .R ||| chanMask f .G ||| chanMask f .B ||| chanMask f .A) := by
  simp only [convertChannels, rescale_self, chanPut_chanGet, orChannels, Nat.and_or_distrib_left]

theorem convertChannels_self_encodePixel {f : PixFmt} (hf : validFmt f = true) (c : Nat) :
    convertChannels f f (encodePixel f c) = encodePixel f c := by
  simp only [convertChannels, chanGet_encodePixel hf, rescale_self]
  rfl

/-- The descriptor of a canonical colour (00_scope.md rule R11; 40_convert.md rule R113, item 3). -/
def canonicalFmt : PixFmt := { bpp := 32, r := chan 0 8, g := chan 8 8, b := chan 16 8, a := chan 24 8 }

theorem wid_canonicalFmt (k : Chan) : wid canonicalFmt k = 8 := by cases k <;> rfl

theorem off_canonicalFmt (k : Chan) : off canonicalFmt k = canonicalBit k := by cases k <;> rfl

theorem chanGet_canonicalFmt (k : Chan) (c : Nat) : chanGet canonicalFmt k c = canonical c k := by
  rw [chanGet_eq_div_mod, canonical_eq_div_mod, off_canonicalFmt, wid_canonicalFmt]

theorem encodePixel_eq_convertChannels (f : PixFmt) (c : Nat) : encodePixel f c = convertChannels canonicalFmt f c := by
  simp only [encodePixel, convertChannels, chanGet_canonicalFmt, wid_canonicalFmt]

/-- Settles O31: the laws of whole pixels, from those of one field. -/
theorem converterLaws : Obligations.ConverterLaws := by
  refine ⟨fun s id c => convertPixel_same s id _, fun s a b c hne ha hb hw => ?_, fun v _ _ => rescale_rescale v,
    fun f c _ => encodePixel_eq_convertChannels f c, fun fs fd p k _ hd hk => ?_, fun f p _ => convertChannels_self f p⟩
  · rw [convertPixel_of_ne s hne, convertPixel_of_ne s hne.symm, convertChannels_there_and_back hb hw,
      convertChannels_self_encodePixel ha]
  · have habsent : chanGet fs k p = 0 := by
      have hlt := chanGet_lt fs k p
      rwa [hk, pow_zero, Nat.lt_one_iff] at hlt
    rw [chanGet_convertChannels fs hd, habsent, rescale_zero]

/-! ### CONVERT and ENCODE -/

theorem tableFault_convert_of_unknown {s : State} (h : known s s.src.fmt = false ∨ known s s.dst.fmt = false) :
    tableFault .convert s = some .format := by
  rcases h with h | h <;> simp [tableFault, h]

/-- Settles O25: the pixel fits PIXOUT, since it is PIXIN or a pixel of a known format. -/
theorem convertWritesTheConvertedPixel : Obligations.ConvertWritesTheConvertedPixel := by
  intro s hf
  refine ⟨fun h => exec_raises (i := .convert) hf (tableFault_convert_of_unknown h), fun hsrc hdst => ?_⟩
  refine ⟨convertEffect s, exec_ready (ready_convert hf hsrc hdst), rfl, ?_⟩
  rw [convertEffect_pixout, BitVec.toNat_ofNat, Nat.mod_eq_of_lt (convertPixel_lt_word _ hdst _), convertPixel]

/-- Settles O26: an encoded colour of a known format fits PIXOUT. -/
theorem encodeWritesTheEncodedColour : Obligations.EncodeWritesTheEncodedColour := by
  intro s hf
  refine ⟨fun h => exec_raises (i := .encode) hf ((tableFault_encode_iff s).mpr (by simp [h])), fun hdst => ?_⟩
  have hlt : encodePixel (fmtSlot s s.dst.fmt) s.color.toNat < 2 ^ 32 :=
    (encodePixel_lt hdst _).trans_le (two_pow_bpp_le hdst)
  refine ⟨encodeEffect s, exec_ready (ready_encode hf hdst), rfl, ?_⟩
  rw [encodeEffect_pixout, BitVec.toNat_ofNat, Nat.mod_eq_of_lt hlt]

end Sys2Proof.Proofs
end

section
/-! SUPPORT. The combine unit (41_combine.md): the field an additive blend computes, for narrow and for wide channels (rule
R126), and what a masked blit writes (rule R128). -/

namespace Sys2Proof.Proofs

open Sys2Proof.Machine Sys2Proof.Laws

/-! ### The additive blend -/

/-- A channel of at most 8 bits is decoded by putting zeros below it (40_convert.md rule R112). -/
theorem decode8_of_wid_le {f : PixFmt} {c : Chan} (hw : wid f c ≤ 8) (p : Nat) :
    decode8 f c p = chanGet f c p * 2 ^ (8 - wid f c) := by
  rcases hw.lt_or_eq with h | h
  · exact rescale_widen _ h
  · simp [decode8, h]

/-- Re-encoding into a channel of at most 8 bits drops the low bits. -/
theorem rescale_eight_of_le {w : Nat} (hw : w ≤ 8) (v : Nat) : rescale v 8 w = v / 2 ^ (8 - w) := by
  rcases hw.lt_or_eq with h | rfl
  · exact rescale_narrow v h
  · simp

/-- The clamp at 255, re-encoded into at most 8 bits, is the channel's own full scale (41_combine.md rule R126, item 1). -/
theorem fullScale_div : ∀ w ≤ 8, 255 / 2 ^ (8 - w) = 2 ^ w - 1 := by decide

/-- A channel of at most 8 bits saturates at its own width (41_combine.md rule R126, item 1). -/
theorem addField_of_wid_le {f : PixFmt} {c : Chan} (hw : wid f c ≤ 8) (d p : Nat) :
    addField f d p c = min (2 ^ wid f c - 1) (chanGet f c d + chanGet f c p) := by
  have hmono : Monotone fun v => v / 2 ^ (8 - wid f c) := fun _ _ h => Nat.div_le_div_right h
  calc addField f d p c
      = min 255 ((chanGet f c d + chanGet f c p) * 2 ^ (8 - wid f c)) / 2 ^ (8 - wid f c) := by
        rw [addField, rescale_eight_of_le hw, decode8_of_wid_le hw, decode8_of_wid_le hw, Nat.add_mul]
    _ = min (255 / 2 ^ (8 - wid f c))
          ((chanGet f c d + chanGet f c p) * 2 ^ (8 - wid f c) / 2 ^ (8 - wid f c)) := hmono.map_min
    _ = min (2 ^ wid f c - 1) (chanGet f c d + chanGet f c p) := by
        rw [fullScale_div _ hw, Nat.mul_div_cancel _ (Nat.two_pow_pos _)]

/-- A channel above 8 bits is summed on its upper 8 bits (41_combine.md rule R126, item 2). -/
theorem addField_of_lt_wid {f : PixFmt} {c : Chan} (hw : 8 < wid f c) (d p : Nat) :
    addField f d p c =
      min 255 (chanGet f c d / 2 ^ (wid f c - 8) + chanGet f c p / 2 ^ (wid f c - 8)) * 2 ^ (wid f c - 8) := by
  rw [addField, rescale_widen _ hw, decode8, decode8, rescale_narrow _ hw, rescale_narrow _ hw]

theorem addField_comm (f : PixFmt) (d p : Nat) (c : Chan) : addField f d p c = addField f p d c := by
  rw [addField, addField, Nat.add_comm]

theorem chanGet_zero (f : PixFmt) (c : Chan) : chanGet f c 0 = 0 := by simp [chanGet]

/-- Black is neutral on a channel of at most 8 bits (41_combine.md rule R126, item 3). -/
theorem addField_black {f : PixFmt} {c : Chan} (hw : wid f c ≤ 8) (d : Nat) : addField f d 0 c = chanGet f c d := by
  have hlt := chanGet_lt f c d
  rw [addField_of_wid_le hw, chanGet_zero]
  omega

/-- Settles O32: the R, G and B fields are the blended ones, and alpha and the uncovered bits are the destination's. -/
theorem additiveBlendLaws : Obligations.AdditiveBlendLaws := by
  intro f d p hf
  refine ⟨fun c hc hw => ?narrow, fun c hc hw => ?wide, fun c hw => ?black, fun c hc => ?comm,
    fun b => testBit_addPixel_outside f d p, addPixel_lt hf p⟩
  case narrow => rw [chanGet_addPixel hf d p hc, addField_of_wid_le hw]
  case wide => rw [chanGet_addPixel hf d p hc, addField_of_lt_wid hw]
  case black =>
    by_cases hc : c = .A
    · rw [hc, chanGet_addPixel_alpha hf]
    · rw [chanGet_addPixel hf d 0 hc, addField_black hw]
  case comm => rw [chanGet_addPixel hf d p hc, chanGet_addPixel hf p d hc, addField_comm]

/-! ### Masked blits -/

/-- After a run of moves a destination pixel is unchanged or was combined once, with a source pixel as it stood before the
run. -/
theorem pixRead_runMoves_cases {s : State} {moves : List Move} (hin : MovesIn s moves) (hdist : MovesDistinct moves)
    (hd : known s s.dst.fmt = true) (hs : known s s.src.fmt = true)
    (hov : overlaps (srcBitmap s) (dstBitmap s) = false) (comb : Comb) (m : Memory) {x : Nat} (hx : x < (dstBitmap s).w)
    (y : Nat) :
    pixRead (runMoves s comb moves m) (dstBitmap s) x y = pixRead m (dstBitmap s) x y ∨
      ∃ q ∈ moves, pixRead (runMoves s comb moves m) (dstBitmap s) x y =
        combined s comb (pixRead m (dstBitmap s) x y) (pixRead m (srcBitmap s) q.u q.v) := by
  by_cases h : ∃ q ∈ moves, (x, y) = (q.x, q.y)
  · obtain ⟨q, hq, hxy⟩ := h
    obtain ⟨rfl, rfl⟩ := Prod.mk.inj hxy
    exact .inr ⟨q, hq, pixRead_runMoves_moved hin hdist hd hs hov comb m hq⟩
  · exact .inl (pixRead_runMoves_other hin hd hs comb m hx fun q hq hxy => h ⟨q, hq, hxy⟩)

/-- With equal ids a masked combine leaves the key only where it stood (41_combine.md rule R128). -/
theorem combined_key_eq_keyPixel {s : State} (hid : s.src.fmt = s.dst.fmt) {old p : Nat}
    (h : combined s .key old p = keyPixel s s.src.fmt) : old = keyPixel s s.src.fmt := by
  rw [combined, ← hid, convertPixel_same] at h
  split at h
  · exact h
  · contradiction

/-- A blit core that masks, with equal ids, leaves the key only where it stood (41_combine.md rule R128). -/
theorem pixRead_blitCore_key {s : State} {hflip : Bool} (hcheck : tableFault .blit s = none) (hid : s.src.fmt = s.dst.fmt)
    {x : Nat} (hx : x < (dstBitmap s).w) {y : Nat}
    (h : pixRead (blitCore .key hflip s).mem (dstBitmap s) x y = keyPixel s s.src.fmt) :
    pixRead s.mem (dstBitmap s) x y = keyPixel s s.src.fmt := by
  obtain ⟨hs, hd, -, -, hov⟩ := blit_checked hcheck
  rcases pixRead_runMoves_cases (blitMoves_in s hflip) (blitMoves_distinct s hflip) hd hs hov .key s.mem hx y with
    hsame | ⟨q, -, hmoved⟩
  · exact hsame.symm.trans h
  · exact combined_key_eq_keyPixel hid (hmoved.symm.trans h)

/-- Settles O39: an ignored or faulting blit leaves memory alone, and one that runs masks the key. -/
theorem keyBlitNeverWritesTheKey : Obligations.KeyBlitNeverWritesTheKey := by
  intro i s t x y hi hid hexec hx _ hkey
  rcases exec_cases hexec with ⟨-, rfl⟩ | ⟨-, k, -, rfl⟩ | ⟨⟨-, hcheck⟩, rfl⟩
  · exact hkey
  · exact hkey
  · rcases hi with rfl | rfl <;> exact pixRead_blitCore_key hcheck hid hx hkey

end Sys2Proof.Proofs
end

section
/-! SUPPORT. The commands without a source bitmap (42_pixel_ops.md): the bytes a single-pixel write stores, for either combine
(rules R140, R141), and that one colour written over a list of pixels stands at each of them (rule R142). -/

namespace Sys2Proof.Proofs

open Sys2Proof.Machine Sys2Proof.Laws

/-! ### Single pixels -/

/-- Byte k of a written pixel (20_memory.md rules R64, R67). -/
theorem read_pixWrite_byte {d : Bitmap} (m : Memory) (x y p : Nat) {k : Nat} (hk : k < pixBytes d.fmt) :
    (Memory.read (pixWrite m d x y p) (pixAddr d x y + k)).toNat = p / 2 ^ (8 * k) % 2 ^ 8 := by
  rw [pixWrite, read_memWrite, if_pos (by omega), Nat.add_sub_cancel_left, BitVec.toNat_ofNat, pow_mul,
    show 2 ^ 8 = 256 from rfl]

theorem pixelInBounds_iff (s : State) :
    pixelInBounds s = true ↔
      0 ≤ dstPosX s ∧ dstPosX s < s.dst.w.toNat ∧ 0 ≤ dstPosY s ∧ dstPosY s < s.dst.h.toNat := decide_eq_true_iff

theorem putPixelEffect_of_outOfBounds (comb : Comb) {s : State}
    (h : dstPosX s < 0 ∨ s.dst.w.toNat ≤ dstPosX s ∨ dstPosY s < 0 ∨ s.dst.h.toNat ≤ dstPosY s) :
    putPixelEffect comb s = s :=
  if_neg fun hb => by
    have := (pixelInBounds_iff s).mp hb
    omega

section InBounds

variable {s : State} {x y : Nat} (hX : dstPosX s = x) (hY : dstPosY s = y) (hx : x < s.dst.w.toNat)
  (hy : y < s.dst.h.toNat)

include hX hY hx hy

/-- Within the bounds the combined colour is written at (X, Y) (42_pixel_ops.md rules R140, R141). -/
theorem putPixelEffect_of_inBounds (comb : Comb) :
    putPixelEffect comb s =
      { s with
        mem := pixWrite s.mem (dstBitmap s) x y
          (combineValue comb (dstBitmap s).fmt (pixRead s.mem (dstBitmap s) x y) (colorPixel s)) } := by
  rw [putPixelEffect, if_pos ((pixelInBounds_iff s).mpr (by omega)), combineWrite_eq, hX, hY, Int.toNat_natCast,
    Int.toNat_natCast]

/-- The bytes of the pixel at (X, Y) after the write, and every other byte (42_pixel_ops.md rules R140, R141). -/
theorem putPixelEffect_stores_bytes (hknown : known s s.dst.fmt = true) (comb : Comb) {v : Nat}
    (hv : v = combineValue comb (dstBitmap s).fmt (pixRead s.mem (dstBitmap s) x y) (colorPixel s)) :
    putPixelEffect comb s = { s with mem := (putPixelEffect comb s).mem } ∧
      v < 2 ^ (8 * pixBytes (dstBitmap s).fmt) ∧
      (∀ k < pixBytes (dstBitmap s).fmt,
        (Memory.read (putPixelEffect comb s).mem (pixAddr (dstBitmap s) x y + k)).toNat = v / 2 ^ (8 * k) % 2 ^ 8) ∧
      ∀ a, (a < pixAddr (dstBitmap s) x y ∨ pixAddr (dstBitmap s) x y + pixBytes (dstBitmap s).fmt ≤ a) →
        Memory.read (putPixelEffect comb s).mem a = Memory.read s.mem a := by
  have hf := valid_dst hknown
  rw [putPixelEffect_of_inBounds hX hY hx hy comb, ← hv]
  refine ⟨rfl, ?_, fun k hk => read_pixWrite_byte s.mem x y v hk, fun a => read_pixWrite_outside s.mem v⟩
  rw [hv, ← bpp_eq hf]
  exact combineValue_lt hf comb (pixRead_lt hf s.mem x y) (encodePixel_lt hf s.color.toNat)

end InBounds

/-- Settles O33: PUTPIXEL is the single-pixel write that replaces, behind the checks of its column. -/
theorem putPixelWritesTheColour : Obligations.PutPixelWritesTheColour := by
  refine ⟨?inBounds, fun s hr hout => ?outOfBounds, fun s k hf hk => exec_raises (i := .putpixel) hf hk⟩
  case inBounds =>
    rintro s x y n addr hr hX hY hx hy rfl rfl
    exact ⟨_, exec_ready hr, putPixelEffect_stores_bytes hX hY hx hy (pixel_checked hr.2).1 .replace rfl⟩
  case outOfBounds => rw [exec_ready hr, commandEffect, putPixelEffect_of_outOfBounds .replace hout]

/-- Settles O34: PUTPIXEL.ADD is the single-pixel write that adds, onto the pixel its bytes hold. -/
theorem putPixelAddBlendsTheColour : Obligations.PutPixelAddBlendsTheColour := by
  refine ⟨?inBounds, fun s hr hout => ?outOfBounds, fun s k hf hk => exec_raises (i := .putpixelAdd) hf hk⟩
  case inBounds =>
    rintro s x y n addr d hr hX hY hx hy rfl rfl hd
    have hread : d = pixRead s.mem (dstBitmap s) x y := hd.trans (pixRead_eq_sum s.mem (dstBitmap s) x y).symm
    subst hread
    exact ⟨_, exec_ready hr, putPixelEffect_stores_bytes hX hY hx hy (pixel_checked hr.2).1 .add rfl⟩
  case outOfBounds => rw [exec_ready hr, commandEffect, putPixelEffect_of_outOfBounds .add hout]

/-! ### Filling -/

section Fill

variable {d : Bitmap} (hf : validFmt d.fmt = true) {p : Nat} (hp : p < 2 ^ bpp d.fmt) {pixels : List (Nat × Nat)}
  (hin : PixelsIn d pixels) {x y : Nat} (hx : x < d.w)

include hf hp hin hx

/-- A pixel that holds the colour keeps it, whether or not it is written again. -/
theorem pixRead_drawPixels_of_pixRead {m : Memory} (h : pixRead m d x y = p) :
    pixRead (drawPixels .replace d p pixels m) d x y = p := by
  induction pixels generalizing m with
  | nil => exact h
  | cons q rest ih =>
    obtain ⟨⟨hqx, -⟩, hrest⟩ := List.forall_mem_cons.mp hin
    apply ih hrest
    by_cases hq : (x, y) = q
    · subst hq
      exact pixRead_pixWrite_same hf m x y hp
    · exact (pixRead_pixWrite_other m p hqx hx hq).trans h

/-- Every pixel of the list holds the colour (42_pixel_ops.md rule R142). -/
theorem pixRead_drawPixels_of_mem (m : Memory) (hmem : (x, y) ∈ pixels) :
    pixRead (drawPixels .replace d p pixels m) d x y = p := by
  induction pixels generalizing m with
  | nil => exact absurd hmem List.not_mem_nil
  | cons q rest ih =>
    obtain ⟨-, hrest⟩ := List.forall_mem_cons.mp hin
    rcases List.mem_cons.mp hmem with rfl | hmem
    · exact pixRead_drawPixels_of_pixRead hf hp hrest hx (pixRead_pixWrite_same hf m x y hp)
    · exact ih hrest _ hmem

end Fill

/-- Settles O35: CLEAR draws COLOR over every pixel of DST, and an effect stays in the footprint. -/
theorem clearFillsTheBitmap : Obligations.ClearFillsTheBitmap := by
  refine ⟨fun s hr => ?_, fun s k hf hk => exec_raises (i := .clear) hf hk⟩
  have hf := valid_dst (pixel_checked hr.2).1
  refine ⟨_, exec_ready hr, rfl, fun x y hx hy => ?filled, fun a => read_commandEffect_outside .clear s⟩
  case filled =>
    exact pixRead_drawPixels_of_mem hf (encodePixel_lt hf s.color.toNat) (clearPixels_in s) hx s.mem
      (mem_rectIndices.mpr ⟨hx, hy⟩)

end Sys2Proof.Proofs
end

section
/-! SUPPORT. The unscaled blit (43_blit.md): overlap as a shared byte (rules R150, R151), the clip of one axis (rules R152,
R153), and what a blit's core leaves at a pixel its image covers and at one it does not (rules R154 to R162). -/

namespace Sys2Proof.Proofs

open Sys2Proof.Machine Sys2Proof.Laws

/-! ### Overlap -/

/-- A valid bitmap has a byte (10_state.md rules R31, R45). -/
theorem memsize_pos {d : Bitmap} (hf : validFmt d.fmt = true) (hv : validDesc d = true) : 0 < memsize d := by
  obtain ⟨hw, hh, -⟩ := (validDesc_iff d).mp hv
  exact Nat.mul_pos (Nat.mul_pos hw hh) (pixBytes_range hf).1

/-- Footprints that are not empty overlap when they share a byte, the greater of the two bases (43_blit.md rule R151). -/
theorem overlaps_iff_shared_byte {r d : Bitmap} (hr : 0 < memsize r) (hd : 0 < memsize d) :
    overlaps r d = true ↔ ∃ a, inFootprint r a ∧ inFootprint d a := by
  rw [overlaps, decide_eq_true_iff]
  constructor
  · intro h
    refine ⟨max r.base d.base, ?_⟩
    unfold inFootprint
    omega
  · rintro ⟨a, ⟨hra, har⟩, hda, had⟩
    omega

theorem tableFault_blit_overlap_iff {s : State} (hs : known s s.src.fmt = true) (hd : known s s.dst.fmt = true)
    (hvs : validDesc (srcBitmap s) = true) (hvd : validDesc (dstBitmap s) = true) :
    tableFault .blit s = some .overlap ↔ overlaps (srcBitmap s) (dstBitmap s) = true := by
  simp [tableFault, hs, hd, hvs, hvd]

/-- Settles O21: overlap is the one check left, and two footprints that are not empty overlap when they share a byte. -/
theorem sharedByteDecidesOverlapFault : Obligations.SharedByteDecidesOverlapFault := by
  intro i s hcol hf hs hd hvs hvd
  have hrecords := exec_records_iff (i := i) hf .overlap
  rw [hcol, tableFault_blit_overlap_iff hs hd hvs hvd] at hrecords
  exact hrecords.trans
    (overlaps_iff_shared_byte (memsize_pos (valid_src hs) hvs) (memsize_pos (valid_dst hd) hvd))

/-! ### The clip window -/

/-- An index the clip counts lies within both sizes (43_blit.md rule R153). -/
theorem clipAxis_bounds {o : Int} {sn dn i : Nat} (h : (i : Int) < (clipAxis o sn dn).count) :
    (0 ≤ (clipAxis o sn dn).src0 + i ∧ (clipAxis o sn dn).src0 + i ≤ sn - 1) ∧
      (0 ≤ (clipAxis o sn dn).dst0 + i ∧ (clipAxis o sn dn).dst0 + i ≤ dn - 1) := by
  simp only [clipAxis] at h ⊢
  omega

/-- An offset past the destination, or that puts the whole source before it, leaves nothing (43_blit.md rule R153). -/
theorem clipAxis_count_nonpos {o : Int} {sn dn : Nat} (h : dn ≤ o ∨ o ≤ -(sn : Int)) :
    (clipAxis o sn dn).count ≤ 0 := by
  simp only [clipAxis]
  omega

/-- Settles O37: the bounds of each axis, the mirror image of a column within SRC.W, and the offsets that leave nothing. -/
theorem clipWindowStaysInBothBitmaps : Obligations.ClipWindowStaysInBothBitmaps := by
  refine ⟨fun s i j hi hj => ?_, fun s => ⟨clipAxis_count_nonpos, clipAxis_count_nonpos⟩⟩
  obtain ⟨hsx, hdx⟩ := clipAxis_bounds hi
  obtain ⟨hsy, hdy⟩ := clipAxis_bounds hj
  exact ⟨hsx, hsy, hdx, hdy, sub_nonneg_of_le hsx.2, sub_le_self _ hsx.1⟩

/-! ### The six forms -/

/-- Each form stands in the blit column and runs the one core with its own COMB and HFLIP (43_blit.md rules R154 to R160). -/
theorem blitForms_core {i : Instr} {comb : Comb} {hflip : Bool} (h : (i, comb, hflip) ∈ blitForms) :
    checkColumn i = .blit ∧ commandEffect i = blitCore comb hflip := by
  simp only [blitForms, List.mem_cons, List.not_mem_nil, or_false, Prod.mk.injEq] at h
  rcases h with ⟨rfl, rfl, rfl⟩ | ⟨rfl, rfl, rfl⟩ | ⟨rfl, rfl, rfl⟩ | ⟨rfl, rfl, rfl⟩ | ⟨rfl, rfl, rfl⟩ |
    ⟨rfl, rfl, rfl⟩ <;> exact ⟨rfl, rfl⟩

section Checked

variable {s : State} (hcheck : tableFault .blit s = none) {x y : Nat} (hx : x < (dstBitmap s).w)

include hcheck hx

/-- A destination pixel the placed image covers is combined with the source pixel the image has there (43_blit.md rules R154,
R161). -/
theorem pixRead_blitCore_covered (comb : Comb) (hflip : Bool) {u v : Nat} (hy : y < (dstBitmap s).h)
    (hsrc : inSource s (x - dstPosX s) (y - dstPosY s))
    (hu : (u : Int) = if hflip then (srcBitmap s).w - 1 - (x - dstPosX s) else x - dstPosX s)
    (hv : (v : Int) = y - dstPosY s) :
    pixRead (blitCore comb hflip s).mem (dstBitmap s) x y =
      combined s comb (pixRead s.mem (dstBitmap s) x y) (pixRead s.mem (srcBitmap s) u v) := by
  obtain ⟨hs, hd, -, -, hov⟩ := blit_checked hcheck
  have hmove : Move.mk x y u v ∈ blitMoves s hflip := mem_blitMoves.mpr ⟨⟨hx, hy⟩, hsrc, hu, hv⟩
  exact pixRead_runMoves_moved (blitMoves_in s hflip) (blitMoves_distinct s hflip) hd hs hov comb s.mem hmove

/-- A destination pixel where the placed image has none keeps its value (43_blit.md rules R152, R154). -/
theorem pixRead_blitCore_uncovered (comb : Comb) (hflip : Bool) (hsrc : ¬inSource s (x - dstPosX s) (y - dstPosY s)) :
    pixRead (blitCore comb hflip s).mem (dstBitmap s) x y = pixRead s.mem (dstBitmap s) x y := by
  obtain ⟨hs, hd, -, -, -⟩ := blit_checked hcheck
  refine pixRead_runMoves_other (blitMoves_in s hflip) hd hs comb s.mem hx fun q hq hxy => ?_
  obtain ⟨rfl, rfl⟩ := Prod.mk.inj hxy
  exact hsrc (mem_blitMoves.mp hq).2.1

end Checked

/-- Settles O36: each form is the one core, which combines the pixels the placed image covers and leaves the others. -/
theorem blitCombinesThePlacedImage : Obligations.BlitCombinesThePlacedImage := by
  intro i comb hflip s hi
  obtain ⟨hcol, heff⟩ := blitForms_core hi
  refine ⟨fun hr => ?completes, fun k hf hk => exec_raises hf (hcol ▸ hk)⟩
  case completes =>
    have hcheck : tableFault .blit s = none := hcol ▸ hr.2
    refine ⟨blitCore comb hflip s, heff ▸ exec_ready hr, rfl, fun x y u v hx hy => ?_, fun x y hx _ => ?_, fun a => ?_⟩
    · exact pixRead_blitCore_covered hcheck hx comb hflip hy
    · exact pixRead_blitCore_uncovered hcheck hx comb hflip
    · exact read_runMoves_outside (blitMoves_in s hflip) comb s.mem

/-! ### Empty windows -/

/-- No columns or no rows: no pixel is processed (43_blit.md rule R152). -/
theorem blitMoves_eq_nil {s : State} (h : (clipX s).count ≤ 0 ∨ (clipY s).count ≤ 0) (hflip : Bool) :
    blitMoves s hflip = [] := by
  rw [blitMoves, List.map_eq_nil_iff, ← List.length_eq_zero_iff, length_rectIndices, Nat.mul_eq_zero, Int.toNat_eq_zero,
    Int.toNat_eq_zero]
  exact h

/-- Settles O38: an axis the placed source misses counts nothing, so the core has no moves to run. -/
theorem emptyWindowBlitsNothing : Obligations.EmptyWindowBlitsNothing := by
  intro i comb hflip s hi hr hmiss
  have hempty : (clipX s).count ≤ 0 ∨ (clipY s).count ≤ 0 :=
    (or_assoc.mpr hmiss).imp clipAxis_count_nonpos clipAxis_count_nonpos
  rw [exec_ready hr, (blitForms_core hi).2, blitCore, blitMoves_eq_nil hempty, runMoves_nil]

/-! ### Plain copies -/

/-- With equal ids BLIT copies a source pixel unchanged to where the offset puts it (40_convert.md rule R106, 43_blit.md
rules R155, R162). -/
theorem pixRead_blitCore_copied {s : State} (hcheck : tableFault .blit s = none) (hid : s.src.fmt = s.dst.fmt)
    {x y u v : Nat} (hx : x < (dstBitmap s).w) (hy : y < (dstBitmap s).h) (hu : u < (srcBitmap s).w)
    (hv : v < (srcBitmap s).h) (hxu : (u : Int) = x - dstPosX s) (hyv : (v : Int) = y - dstPosY s) :
    pixRead (blitCore .replace false s).mem (dstBitmap s) x y = pixRead s.mem (srcBitmap s) u v := by
  have hsrc : inSource s (x - dstPosX s) (y - dstPosY s) := by
    unfold inSource
    omega
  rw [pixRead_blitCore_covered hcheck hx .replace false hy hsrc hxu hyv, combined, ← hid, convertPixel_same]

/-- Settles O40: at (0, 0) pixel (x, y) comes from source pixel (x, y), at (−3, 0) from (x + 3, y), and the image at (0, 0)
covers no pixel past the source's size. -/
theorem blitCopiesTheSource : Obligations.BlitCopiesTheSource := by
  refine ⟨fun s hr hid hX hY hw hh => ?corner, fun s hr hid hX hY => ?dropsThree⟩
  case corner =>
    refine ⟨_, exec_ready hr, fun x y hx hy => ?copied, fun x y hx _ hpast => ?kept⟩
    case copied =>
      exact pixRead_blitCore_copied hr.2 hid (hx.trans_le hw) (hy.trans_le hh) hx hy (by omega) (by omega)
    case kept =>
      refine pixRead_blitCore_uncovered hr.2 hx .replace false fun hsrc => ?_
      obtain ⟨-, hxw, -, hyh⟩ := hsrc
      rw [hX, sub_zero] at hxw
      rw [hY, sub_zero] at hyh
      exact hpast.elim (Int.ofNat_lt.mp hxw).not_ge (Int.ofNat_lt.mp hyh).not_ge
  case dropsThree =>
    refine ⟨_, exec_ready hr, fun x y hx hy hu hv => ?_⟩
    exact pixRead_blitCore_copied hr.2 hid hx hy hu hv (by omega) (by omega)

end Sys2Proof.Proofs
end

section
/-! SUPPORT. The scaler (44_scaler.md): the nearest-neighbour index (rules R171, R177), what a scaled core leaves at a pixel it
samples and at one it does not (rules R172, R174), and when two commands have one effect on memory (rules R176, R178). -/

namespace Sys2Proof.Proofs

open Sys2Proof.Machine Sys2Proof.Laws

/-! ### The nearest-neighbour index -/

theorem nearest_zero (sn dn : Nat) : nearest 0 sn dn = 0 := by rw [nearest, Nat.zero_mul, Nat.zero_div]

theorem nearest_mono {i i' : Nat} (sn dn : Nat) (h : i ≤ i') : nearest i sn dn ≤ nearest i' sn dn :=
  Nat.div_le_div_right (Nat.mul_le_mul_right sn h)

theorem nearest_self (i : Nat) {n : Nat} (hn : 0 < n) : nearest i n n = i := Nat.mul_div_cancel i hn

/-- Enlarging by k repeats each source index k times (44_scaler.md rule R177, item 5). -/
theorem nearest_enlarge (i k : Nat) {sn : Nat} (hs : 0 < sn) : nearest i sn (k * sn) = i / k :=
  Nat.mul_div_mul_right i k hs

/-- Reducing by k takes every k-th source index (44_scaler.md rule R177, item 6). -/
theorem nearest_reduce (i k : Nat) {dn : Nat} (hd : 0 < dn) : nearest i (k * dn) dn = k * i := by
  rw [nearest, ← Nat.mul_assoc, Nat.mul_div_cancel _ hd, Nat.mul_comm]

/-- Settles O41: the six properties, one lemma each. -/
theorem nearestIndexProperties : Obligations.NearestIndexProperties :=
  ⟨fun _ _ _ hi hs => Nat.le_sub_one_of_lt (nearest_lt hi hs), fun sn dn _ => nearest_zero sn dn,
    fun _ _ sn dn _ => nearest_mono sn dn, fun i _ => nearest_self i, fun i k _ _ => nearest_enlarge i k,
    fun i k _ _ => nearest_reduce i k⟩

/-! ### Sampled and unsampled pixels -/

section Checked

variable {s : State} (hcheck : tableFault .blit s = none) (r : State → ScaleRect) {x y : Nat}

include hcheck

/-- A destination pixel with a sample takes the converted sample (44_scaler.md rule R172). -/
theorem pixRead_scaledCore_sampled {u v : Nat} (hmove : Move.mk x y u v ∈ scaledMoves s (r s)) :
    pixRead (scaledCore r s).mem (dstBitmap s) x y =
      convertPixel s s.src.fmt s.dst.fmt (pixRead s.mem (srcBitmap s) u v) := by
  obtain ⟨hs, hd, -, -, hov⟩ := blit_checked hcheck
  exact pixRead_runMoves_moved (scaledMoves_in s (r s)) (scaledMoves_distinct s (r s)) hd hs hov .replace s.mem hmove

/-- A destination pixel without a sample keeps its value (44_scaler.md rule R174). -/
theorem pixRead_scaledCore_unsampled (hx : x < (dstBitmap s).w) (hno : ∀ u v, Move.mk x y u v ∉ scaledMoves s (r s)) :
    pixRead (scaledCore r s).mem (dstBitmap s) x y = pixRead s.mem (dstBitmap s) x y := by
  obtain ⟨hs, hd, -, -, -⟩ := blit_checked hcheck
  refine pixRead_runMoves_other (scaledMoves_in s (r s)) hd hs .replace s.mem hx fun q hq hxy => ?_
  obtain ⟨rfl, rfl⟩ := Prod.mk.inj hxy
  exact hno q.u q.v hq

end Checked

/-- Settles O42: the moves of SRBLIT are its index pairs whose pixel and sample lie in their bitmaps. -/
theorem srblitCopiesTheNearestSample : Obligations.SrblitCopiesTheNearestSample := by
  refine ⟨fun s hr => ?completes, fun s k hf hk => exec_raises (i := .srblit) hf hk⟩
  case completes =>
    refine ⟨_, exec_ready hr, rfl, ?sampled, fun x y hx _ hnone => ?kept, fun a => read_commandEffect_outside .srblit s⟩
    case sampled =>
      intro x y i j u v hx hy hxi hyj hi hj hu hv husrc hvsrc hsw hsh
      exact pixRead_scaledCore_sampled hr.2 srblitRect
        (mem_scaledMoves.mpr ⟨⟨hsw.ne', hsh.ne'⟩, i, j, hi, hj, hxi, hyj, hu, hv, hx, hy, husrc, hvsrc⟩)
    case kept =>
      refine pixRead_scaledCore_unsampled hr.2 srblitRect hx fun u v hmove => hnone ?_
      obtain ⟨⟨hsw, hsh⟩, i, j, hi, hj, hxi, hyj, hu, hv, -, -, husrc, hvsrc⟩ := mem_scaledMoves.mp hmove
      have hsample : inSource s u v :=
        ⟨Int.natCast_nonneg u, Int.ofNat_lt.mpr husrc, Int.natCast_nonneg v, Int.ofNat_lt.mpr hvsrc⟩
      rw [hu, hv] at hsample
      exact ⟨i, j, hxi, hyj, hi, hj, Nat.pos_of_ne_zero hsw, Nat.pos_of_ne_zero hsh, hsample⟩

/-- Settles O43: every index pair of SBLIT samples within SRC, so its moves are the pairs whose pixel lies in DST. -/
theorem sblitScalesTheWholeSource : Obligations.SblitScalesTheWholeSource := by
  refine ⟨fun s hr => ?completes, fun s k hf hk => exec_raises (i := .sblit) hf hk⟩
  case completes =>
    refine ⟨_, exec_ready hr, rfl, fun x y i j hx hy hxi hyj hi hj => ?sampled, fun x y hx _ hout => ?kept,
      fun a => read_commandEffect_outside .sblit s⟩
    case sampled =>
      obtain ⟨-, -, hsrc, -, -⟩ := blit_checked hr.2
      obtain ⟨hw, hh, -⟩ := (validDesc_iff _).mp hsrc
      exact pixRead_scaledCore_sampled hr.2 sblitRect
        (mem_scaledMoves.mpr ⟨⟨Nat.ne_of_gt hw, Nat.ne_of_gt hh⟩, i, j, hi, hj, hxi, hyj, (zero_add _).symm,
          (zero_add _).symm, hx, hy, nearest_lt hi hw, nearest_lt hj hh⟩)
    case kept =>
      refine pixRead_scaledCore_unsampled hr.2 sblitRect hx fun u v hmove => ?_
      obtain ⟨-, i, j, hi, hj, hxi, hyj, -⟩ := mem_scaledMoves.mp hmove
      simp only [sblitRect] at hi hj hxi hyj
      omega

/-! ### Equal effects -/

/-- Two commands of one column whose effects leave one memory end alike in every state: both are ignored, both raise the
same code, or both take effect (60_exceptions.md rules R192, R193, R196). -/
theorem exec_agree {i j : Instr} {s : State} (hcol : checkColumn i = checkColumn j)
    (hmem : (commandEffect i s).mem = (commandEffect j s).mem) :
    ∃ t t', exec i s = .next t ∧ exec j s = .next t' ∧ t.mem = t'.mem ∧ t.fault = t'.fault ∧ t.err = t'.err := by
  cases hf : s.fault with
  | true => exact ⟨s, s, exec_faulted i hf, exec_faulted j hf, rfl, rfl, rfl⟩
  | false =>
    cases hk : tableFault (checkColumn i) s with
    | some k => exact ⟨_, _, exec_raises hf hk, exec_raises hf (hcol ▸ hk), rfl, rfl, rfl⟩
    | none =>
      obtain ⟨hfault, herr, -⟩ := commandEffect_record i s
      obtain ⟨hfault', herr', -⟩ := commandEffect_record j s
      exact ⟨_, _, exec_ready ⟨hf, hk⟩, exec_ready ⟨hf, hcol ▸ hk⟩, hmem, hfault.trans hfault'.symm,
        herr.trans herr'.symm⟩

/-- Settles O44: at scale one SBLIT runs the moves of BLIT. -/
theorem sblitOfEqualSizeIsBlit : Obligations.SblitOfEqualSizeIsBlit := by
  intro s hw hh
  refine exec_agree rfl ?_
  rw [commandEffect, commandEffect, scaledCore_mem, blitCore_mem, scaledMoves_unscaled hw hh]

/-- The rectangles of SRBLIT are those of SBLIT when its source rectangle is the whole source (44_scaler.md rule R176). -/
theorem srblitRect_wholeSource {s : State} (hx : s.srcX = 0) (hy : s.srcY = 0) (hw : s.srcRsize.w = s.src.w)
    (hh : s.srcRsize.h = s.src.h) : srblitRect s = sblitRect s := by
  have hzero : signed32 0 = 0 := rfl
  rw [srblitRect, srcPosX, srcPosY, hx, hy, hw, hh, hzero]
  rfl

/-- Settles O45: the two commands run one core on equal rectangles. -/
theorem srblitOfTheWholeSourceIsSblit : Obligations.SrblitOfTheWholeSourceIsSblit := by
  intro s hx hy hw hh
  refine exec_agree rfl ?_
  rw [commandEffect, commandEffect, scaledCore_mem, scaledCore_mem, srblitRect_wholeSource hx hy hw hh]

/-! ### Empty rectangles -/

/-- A size of 0 leaves no pixel to copy (44_scaler.md rule R173). -/
theorem scaledCore_of_zeroSize {r : State → ScaleRect} {s : State}
    (h : (r s).sw = 0 ∨ (r s).sh = 0 ∨ (r s).dw = 0 ∨ (r s).dh = 0) : scaledCore r s = s := by
  rw [scaledCore, scaledMoves, if_pos h, runMoves_nil]

/-- Settles O46: a size register that holds 0 is a rectangle of size 0. -/
theorem zeroSizeScalesNothing : Obligations.ZeroSizeScalesNothing := by
  have hzero {b : BitVec 16} : b = 0 → b.toNat = 0 := fun h => congrArg BitVec.toNat h
  refine ⟨fun s hr h => ?srblit, fun s hr h => ?sblit⟩
  case srblit =>
    have hsize := h.imp hzero (Or.imp hzero (Or.imp hzero hzero))
    rw [exec_ready hr, commandEffect, scaledCore_of_zeroSize hsize]
  case sblit =>
    have hsize := h.imp hzero hzero
    rw [exec_ready hr, commandEffect, scaledCore_of_zeroSize (.inr (.inr hsize))]

end Sys2Proof.Proofs
end

section
/-! SUPPORT. The fault record (60_exceptions.md): which check decides it (rules R192, R193), that a command which faults
leaves nothing else behind (rule R194), and that it stays until a reset (rules R195, R196). -/

namespace Sys2Proof.Proofs

open Sys2Proof.Machine Sys2Proof.Laws

/-! ### What a command does to the record -/

/-- Settles O59: step 0 of 60_exceptions.md rule R192, made again in `exec` (log 13). -/
theorem execInAFaultedEngineChangesNothing : Obligations.ExecInAFaultedEngineChangesNothing :=
  fun i _ hf => exec_faulted i hf

/-- No check of a command raises E_ILLEGAL (60_exceptions.md rules R191, R192). -/
theorem code_of_tableFault {col : CheckColumn} {s : State} {k : FaultCode} (h : tableFault col s = some k) :
    k.code = 2 ∨ k.code = 3 ∨ k.code = 4 := by
  rcases tableFault_code h with rfl | ⟨rfl, -⟩ | ⟨rfl, -⟩
  · exact .inl rfl
  · exact .inr (.inl rfl)
  · exact .inr (.inr rfl)

/-- Settles O15: of the three things a command can do, only raising the fault of a check sets FAULT. -/
theorem faultsArePrecise : Obligations.FaultsArePrecise := by
  intro i s t hf h hft
  rcases exec_cases h with ⟨-, rfl⟩ | ⟨-, k, hk, rfl⟩ | ⟨-, rfl⟩
  · exact absurd hft (by simp [hf])
  · exact ⟨rfl, code_of_tableFault hk⟩
  · exact absurd hft (by simp [commandEffect_record, hf])

/-! ### What a write to CMD does to the record -/

/-- A CMD write while faulted only takes the action (60_exceptions.md rule R196). -/
theorem step_cmd_faulted {s : State} {cw : Word} {rest : List HostAction} (h : s.host = .wr 1 cw :: rest)
    (hf : s.fault = true) : step s = .next { s with host := rest } := by
  rw [step_cmd h, cmdWrite_eq, if_pos hf]

/-- Settles O6. -/
theorem faultedEngineIgnoresCommands : Obligations.FaultedEngineIgnoresCommands :=
  fun _ _ _ => step_cmd_faulted

/-- Settles O14: a word that is not legal is the one O4 speaks of, and a legal word runs its command, whose checks do not
depend on the host's list. -/
theorem firstFailingCheckDecidesTheFault : Obligations.FirstFailingCheckDecidesTheFault := by
  intro s w rest hhost
  refine ⟨step_cmd_faulted hhost, reservedWordsRaiseIllegal.2 s w rest hhost, fun i hf hd => ?_⟩
  obtain rfl := decode_eq_ok_iff.mp hd
  have hrun : step s = exec i { s with host := rest } := step_runs hhost hf hd
  refine ⟨fun k hk => ?raises, fun hk => ?completes⟩
  case raises => exact hrun.trans (exec_raises hf hk)
  case completes =>
    obtain ⟨hfault, herr, hfcmd⟩ := commandEffect_record i { s with host := rest }
    exact ⟨_, hrun.trans (exec_ready ⟨hf, hk⟩), hfault.trans hf, herr, hfcmd⟩

/-! ### What a faulted engine keeps -/

/-- The register port of a faulted engine keeps the record unless RESET bit 0 is written 1 (60_exceptions.md rules R195,
R196). -/
theorem portWrite_record {o : Nat} {v : Word} {s t : State} (hf : s.fault = true)
    (hreset : o = regOffset .reset → v.getLsbD 0 = false) (h : portWrite exec o v s = .next t) :
    t.fault = s.fault ∧ t.err = s.err ∧ t.fcmd = s.fcmd := by
  rcases portWrite_cases o v s with ⟨-, he⟩ | ⟨-, he⟩ | ⟨r, -, hr, he⟩ <;> rw [he] at h
  case inl =>
    rw [cmdWrite_eq, if_pos hf] at h
    rw [Host.Outcome.next.inj h]
    exact ⟨rfl, rfl, rfl⟩
  case inr.inl =>
    rw [Host.Outcome.next.inj h]
    exact ⟨rfl, rfl, rfl⟩
  case inr.inr =>
    rw [← Host.Outcome.next.inj h]
    refine regWrite_record s v (or_iff_not_imp_left.mpr fun hne => hreset ?_)
    rw [regAt_eq_some_iff.mp hr, not_not.mp hne]

/-- Every host action of a faulted engine but a reset keeps the record (60_exceptions.md rule R195). -/
theorem hostAction_record {a : HostAction} {s t : State} (hf : s.fault = true) (hinput : a ≠ .resetInput)
    (hwrite : ∀ v, a = .wr 2 v → v.getLsbD 0 = false) (h : hostAction exec a s = .next t) :
    t.fault = s.fault ∧ t.err = s.err ∧ t.fcmd = s.fcmd := by
  cases a with
  | wr idx v =>
    refine portWrite_record hf (fun ho => hwrite v ?_) h
    have hidx : idx = 2 := Nat.eq_of_mul_eq_mul_left (by decide : 0 < 4) ho
    rw [hidx]
  | rd idx =>
    rw [← Host.Outcome.next.inj h]
    exact ⟨rfl, rfl, rfl⟩
  | mw addr n v =>
    rw [hostAction] at h
    split at h
    · contradiction
    · rw [← Host.Outcome.next.inj h]
      exact ⟨rfl, rfl, rfl⟩
  | mr addr n =>
    rw [hostAction] at h
    split at h
    · contradiction
    · rw [← Host.Outcome.next.inj h]
      exact ⟨rfl, rfl, rfl⟩
  | resetInput => exact absurd rfl hinput

/-- Settles O16: the step takes the action and does it. -/
theorem onlyAResetClearsTheFaultRecord : Obligations.OnlyAResetClearsTheFaultRecord := by
  intro s t a rest hhost hf hinput hwrite h
  rw [step_action hhost] at h
  obtain ⟨hfault, hrecord⟩ := hostAction_record (s := { s with host := rest }) hf hinput hwrite h
  exact ⟨hfault.trans hf, hrecord⟩

end Sys2Proof.Proofs
end

section
/-! SUPPORT. Reset (70_reset_and_hazards.md): its two sources do the same (rule R221), what it leaves in every register (rule
R220), and why no command succeeds directly after it (rule R223). -/

namespace Sys2Proof.Proofs

open Sys2Proof.Machine Sys2Proof.Laws

/-! ### The two sources of a reset -/

theorem step_wr_reset {s : State} {v : Word} {rest : List HostAction} (h : s.host = .wr 2 v :: rest) :
    step s = .next (regWrite { s with host := rest } v .reset) :=
  (step_action h).trans (portWrite_regOffset (r := .reset) (by decide) _ v)

/-- The reset input and a write of 1 to RESET bit 0 have identical effect (70_reset_and_hazards.md rule R221). -/
theorem step_reset {s : State} {v : Word} {rest : List HostAction}
    (h : s.host = .resetInput :: rest ∨ (s.host = .wr 2 v :: rest ∧ v.getLsbD 0 = true)) :
    step s = .next (resetRegs { s with host := rest }) := by
  rcases h with hinput | ⟨hwrite, hbit⟩
  · exact step_action hinput
  · rw [step_wr_reset hwrite, regWrite, if_pos hbit]

/-! ### What a reset leaves in the registers -/

/-- After a reset slot 0 is unpopulated like slot 7 (10_state.md rules R33, R35). -/
theorem fmtSlot_resetRegs (s : State) {id : BitVec 3} (h : id = 0 ∨ id = 7) : fmtSlot (resetRegs s) id = zeroFmt := by
  rcases h with rfl | rfl
  · rfl
  · rfl

theorem sizeWord_zero : sizeWord 0 0 = 0 := by decide

/-- Every register but KEY and those of slots 1 to 6 reads 0 after a reset (70_reset_and_hazards.md rule R220). -/
theorem regRead_resetRegs (s : State) {r : Reg} (hkey : regOffset r ≠ 0x5C)
    (hslots : ¬(0x120 ≤ regOffset r ∧ regOffset r < 0x1E0)) : regRead (resetRegs s) r = 0 := by
  obtain ⟨hbpp, hchan⟩ := regRead_slotSeven s
  cases r with
  | key => contradiction
  | fmtBpp id =>
    have hid : id = 0 ∨ id = 7 := by
      revert id
      decide
    rw [regRead, fmtSlot_resetRegs s hid]
    exact hbpp
  | fmtChan id c =>
    have hid : id = 0 ∨ id = 7 := by
      revert id
      cases c <;> decide
    rw [regRead, fmtSlot_resetRegs s hid]
    exact hchan c
  | srcSize | dstSize | dstRsize | srcRsize => exact sizeWord_zero
  | _ => rfl

/-- An offset where every register reads 0 reads 0, as an undefined one does (10_state.md rule R23). -/
theorem portRead_eq_zero {o : Nat} {s : State} (h : ∀ r, o = regOffset r → regRead s r = 0) : portRead o s = 0 := by
  unfold portRead
  split
  · rfl
  · rename_i r hr
    exact h r (regAt_eq_some_iff.mp hr)

/-- Settles O17: both sources do `resetRegs`, and the registers that keep their value read the parameters alone. -/
theorem resetClearsEveryRegister : Obligations.ResetClearsEveryRegister := by
  refine ⟨fun s v rest h => ?reset, fun s v rest hhost hbit => ?noReset⟩
  case reset =>
    refine ⟨_, step_reset h, rfl, rfl, rfl, fun o hkey hslots => portRead_eq_zero ?cleared, fun o ho => portRead_congr ?kept,
      fun hidle => step_idle hidle⟩
    case cleared =>
      rintro r rfl
      exact regRead_resetRegs _ hkey hslots
    case kept =>
      rintro r rfl
      exact regRead_constant (resetRegs_cfg _) (ho.imp_right fun hslots => ⟨hslots.1, hslots.2.trans (by decide)⟩)
  case noReset => rw [step_wr_reset hhost, regWrite, if_neg (Bool.eq_false_iff.mp hbit)]

/-! ### Commands directly after a reset -/

/-- Every column checks DST.FMT, and only another format check comes before (60_exceptions.md rule R192). -/
theorem tableFault_of_unknown_dst {s : State} (h : known s s.dst.fmt = false) (col : CheckColumn) :
    tableFault col s = some .format := by
  rw [tableFault, if_pos h, ite_self]

/-- Settles O18: the format id of DST is 0 and slot 0 is unpopulated, hence unknown. -/
theorem afterResetEveryCommandRaisesFormat : Obligations.AfterResetEveryCommandRaisesFormat := by
  intro i m c
  have hunknown : known { State.reset with mem := m, cfg := c } 0 = false := validFmt_zeroFmt
  exact exec_raises rfl (tableFault_of_unknown_dst hunknown _)

end Sys2Proof.Proofs
end

section
/-! SUPPORT. The command table and the round trip (30_encoding.md rules R80, R84, R86): both are read off
`decode_eq_ok_iff`, by which the legal words are the encodings. -/

namespace Sys2Proof.Proofs

open Sys2Proof.Laws

/-- Every command of the table of 30_encoding.md rule R84 has legal fields. -/
@[simp] theorem wellFormed_eq_true (i : Instr) : wellFormed i = true := by cases i <;> rfl

/-- Settles O3: encoding inverts decoding in both directions, and no command is ill-formed. -/
theorem decodeAndEncodeAgree : Obligations.DecodeAndEncodeAgree :=
  ⟨fun i _ => decode_encode i, fun _ i h => ⟨wellFormed_eq_true i, decode_eq_ok_iff.mp h⟩⟩

/-- Settles O1: each of the nine words is the encoding of its command. -/
theorem tableWordsDecode : Obligations.TableWordsDecode := by
  simp only [Obligations.TableWordsDecode, decode_eq_ok_iff]
  decide

end Sys2Proof.Proofs
end
